-- ==== Sys2Proof/Word.lean ====
section
/-! DEFINITION. The words of the machine: 16-bit words, bytes, register numbers, and the names of the
three condition flags (00_scope.md R9, R12; 10_state.md R20, R25). -/

namespace Sys2Proof

/-- "an unsigned 16-bit integer; the universal unit of memory, registers, and instructions" (R17). -/
abbrev Word := BitVec 16

/-- One character of the channels (R31, R32), and one half of a word. -/
abbrev Byte := BitVec 8

/-- The number of a general register R0..R7; it comes from a 3-bit field, so no other exists (R20). -/
abbrev Reg := Fin 8

/-- COND: exactly one of NEGATIVE, ZERO, POSITIVE (R25). Its 3-bit one-hot value is `condBits`. -/
inductive Cond where
  | n
  | z
  | p
  deriving DecidableEq, Repr, Inhabited

end Sys2Proof
end

