-- ==== Sys2Proof/Syntax.lean ====
section
/-! DEFINITION. The instructions: one constructor per row of spec/opcode_table.json, holding the fields
that the decode function of 30_encoding.md R70 reads. Immediates and offsets stand as their raw fields. -/

namespace Sys2Proof

/-- The 25 rows of the opcode table (30_encoding.md R63, R67, R70). -/
inductive Instr where
  /-- BR: condition set n, z, p and PCoffset9 (R90). -/
  | br (n z p : Bool) (off : BitVec 9)
  /-- ADD, register form (R80). -/
  | addReg (dr sr1 sr2 : Reg)
  /-- ADD, immediate form (R81). -/
  | addImm (dr sr1 : Reg) (imm : BitVec 5)
  /-- LD (R100). -/
  | ld (dr : Reg) (off : BitVec 9)
  /-- ST (R110). -/
  | st (sr : Reg) (off : BitVec 9)
  /-- JSR (R92). -/
  | jsr (off : BitVec 11)
  /-- JSRR (R93). -/
  | jsrr (base : Reg)
  /-- AND, register form (R82). -/
  | andReg (dr sr1 sr2 : Reg)
  /-- AND, immediate form (R83). -/
  | andImm (dr sr1 : Reg) (imm : BitVec 5)
  /-- LDR (R102). -/
  | ldr (dr base : Reg) (off : BitVec 6)
  /-- STR (R112). -/
  | str (sr base : Reg) (off : BitVec 6)
  /-- RTI, an invalid opcode (R140). -/
  | rti
  /-- NOT (R84). -/
  | not (dr sr : Reg)
  /-- LDI (R101). -/
  | ldi (dr : Reg) (off : BitVec 9)
  /-- STI (R111). -/
  | sti (sr : Reg) (off : BitVec 9)
  /-- JMP; RET is JMP R7 (R91). -/
  | jmp (base : Reg)
  /-- The reserved opcode, invalid (R141). -/
  | res
  /-- LEA (R103). -/
  | lea (dr : Reg) (off : BitVec 9)
  /-- TRAP x20, GETC (R123). -/
  | getc
  /-- TRAP x21, OUT (R124). -/
  | out
  /-- TRAP x22, PUTS (R125). -/
  | puts
  /-- TRAP x23, IN (R126). -/
  | in_
  /-- TRAP x24, PUTSP (R127). -/
  | putsp
  /-- TRAP x25, HALT (R128). -/
  | halt
  /-- TRAP with a code of none of the six rows above (R120, R129). -/
  | trap (code : BitVec 8)
  deriving DecidableEq, Repr

end Sys2Proof
end

