-- ==== Sys2Proof/WellFormed.lean ====
section
/-! DEFINITION. Well-formed instructions. Every operand's range is fixed by its type; the one check left is
that the generic TRAP row holds a code of none of the six named rows, which have priority over it
(opcode_table.json, row TRAP; 44_trap.md R122). -/

namespace Sys2Proof

/-- The six trap codes (44_trap.md R122). -/
def namedTrapCodes : List (BitVec 8) := [0x20, 0x21, 0x22, 0x23, 0x24, 0x25]

/-- The instruction is one that some word decodes to. -/
def Instr.wellFormed : Instr → Bool
  | .trap code => !namedTrapCodes.contains code
  | .br _ _ _ _ | .addReg _ _ _ | .addImm _ _ _ | .ld _ _ | .st _ _ | .jsr _ | .jsrr _ => true
  | .andReg _ _ _ | .andImm _ _ _ | .ldr _ _ _ | .str _ _ _ | .rti | .not _ _ => true
  | .ldi _ _ | .sti _ _ | .jmp _ | .res | .lea _ _ => true
  | .getc | .out | .puts | .in_ | .putsp | .halt => true

end Sys2Proof
end

