-- ==== Sys2Proof/Decode.lean ====
section
/-! DEFINITION. Decoding (30_encoding.md R60 to R70), total on every word: no word is rejected, since the two
invalid opcodes are rows of the table (R69, R70). After it the encoder, the opcode table as data, and the
host's `decodeTableWord`. -/

namespace Sys2Proof

/-! ### Field extraction (R62) -/

/-- The opcode, bits 15:12 (R61). -/
def Word.op (w : Word) : BitVec 4 := w.extractLsb' 12 4

/-- Bits 11:9: DR of the register-defining instructions, SR of the stores. -/
def Word.dr (w : Word) : Reg := (w.extractLsb' 9 3).toFin

/-- Bits 8:6: SR1, BaseR. -/
def Word.sr1 (w : Word) : Reg := (w.extractLsb' 6 3).toFin

/-- Bits 2:0: SR2. -/
def Word.sr2 (w : Word) : Reg := (w.extractLsb' 0 3).toFin

/-- Bits 4:0: imm5. -/
def Word.imm5 (w : Word) : BitVec 5 := w.extractLsb' 0 5

/-- Bits 5:0: offset6. -/
def Word.offset6 (w : Word) : BitVec 6 := w.extractLsb' 0 6

/-- Bits 8:0: PCoffset9. -/
def Word.pcOffset9 (w : Word) : BitVec 9 := w.extractLsb' 0 9

/-- Bits 10:0: PCoffset11. -/
def Word.pcOffset11 (w : Word) : BitVec 11 := w.extractLsb' 0 11

/-- Bits 7:0: trapvect8. -/
def Word.trapvect8 (w : Word) : BitVec 8 := w.extractLsb' 0 8

/-! ### The decode function (R70) -/

/-- The TRAP rows: six codes by name (R122), every other code the generic row. -/
def decodeTrap (code : BitVec 8) : Instr :=
  if code = 0x20 then .getc
  else if code = 0x21 then .out
  else if code = 0x22 then .puts
  else if code = 0x23 then .in_
  else if code = 0x24 then .putsp
  else if code = 0x25 then .halt
  else .trap code

/-- `decode(w)` of R70, case by case. The opcode numbers other than 1 and 8 are PRESUMED by the spec (log 10). -/
def decode (w : Word) : Instr :=
  match w.op.toNat with
  | 0x0 => .br (w.getLsbD 11) (w.getLsbD 10) (w.getLsbD 9) w.pcOffset9
  | 0x1 =>
    if w.getLsbD 5 then .addImm w.dr w.sr1 w.imm5
    else .addReg w.dr w.sr1 w.sr2
  | 0x2 => .ld w.dr w.pcOffset9
  | 0x3 => .st w.dr w.pcOffset9
  | 0x4 => if w.getLsbD 11 then .jsr w.pcOffset11 else .jsrr w.sr1
  | 0x5 =>
    if w.getLsbD 5 then .andImm w.dr w.sr1 w.imm5
    else .andReg w.dr w.sr1 w.sr2
  | 0x6 => .ldr w.dr w.sr1 w.offset6
  | 0x7 => .str w.dr w.sr1 w.offset6
  | 0x8 => .rti
  | 0x9 => .not w.dr w.sr1
  | 0xA => .ldi w.dr w.pcOffset9
  | 0xB => .sti w.dr w.pcOffset9
  | 0xC => .jmp w.sr1
  | 0xD => .res
  | 0xE => .lea w.dr w.pcOffset9
  | _ => decodeTrap w.trapvect8

/-! ### The encoder (formats of R67; ignored bits at their canonical values, R68) -/

/-- The 3-bit field of a register number. -/
def regBits (r : Reg) : BitVec 3 := BitVec.ofNat 3 r.val

/-- The BR condition field, bit 11 = n, bit 10 = z, bit 9 = p (R64). -/
def nzpBits (n z p : Bool) : BitVec 3 := BitVec.ofBool n ++ BitVec.ofBool z ++ BitVec.ofBool p

/-- Format OPR: `oooo ddd sss 0 xx ttt`. -/
def encOpr (op : BitVec 4) (d s t : Reg) : Word :=
  op ++ regBits d ++ regBits s ++ 0b0#1 ++ 0b00#2 ++ regBits t

/-- Format OPI: `oooo ddd sss 1 iiiii`. -/
def encOpi (op : BitVec 4) (d s : Reg) (i : BitVec 5) : Word :=
  op ++ regBits d ++ regBits s ++ 0b1#1 ++ i

/-- Format PC9: `oooo ddd iiiiiiiii`. -/
def encPc9 (op : BitVec 4) (d : Reg) (i : BitVec 9) : Word := op ++ regBits d ++ i

/-- Format BASE6: `oooo ddd sss iiiiii`. -/
def encBase6 (op : BitVec 4) (d s : Reg) (i : BitVec 6) : Word := op ++ regBits d ++ regBits s ++ i

/-- Format JR: `oooo xxx sss xxxxxx`. -/
def encJr (op : BitVec 4) (s : Reg) : Word := op ++ 0b000#3 ++ regBits s ++ 0b000000#6

/-- Format TRAP: `1111 xxxx vvvvvvvv`. -/
def encTrap (code : BitVec 8) : Word := 0b1111#4 ++ 0b0000#4 ++ code

/-- The word of an instruction: zeros in the bits no field names, but 0b111111 in bits 5:0 of NOT, as an
assembler emits (R68). -/
def encode : Instr → Word
  | .br n z p off => 0b0000#4 ++ nzpBits n z p ++ off
  | .addReg d s t => encOpr 0b0001#4 d s t
  | .addImm d s i => encOpi 0b0001#4 d s i
  | .ld d off => encPc9 0b0010#4 d off
  | .st s off => encPc9 0b0011#4 s off
  | .jsr off => 0b0100#4 ++ 0b1#1 ++ off
  | .jsrr b => encJr 0b0100#4 b
  | .andReg d s t => encOpr 0b0101#4 d s t
  | .andImm d s i => encOpi 0b0101#4 d s i
  | .ldr d b off => encBase6 0b0110#4 d b off
  | .str s b off => encBase6 0b0111#4 s b off
  | .rti => 0b1000#4 ++ 0b000000000000#12
  | .not d s => 0b1001#4 ++ regBits d ++ regBits s ++ 0b111111#6
  | .ldi d off => encPc9 0b1010#4 d off
  | .sti s off => encPc9 0b1011#4 s off
  | .jmp b => encJr 0b1100#4 b
  | .res => 0b1101#4 ++ 0b000000000000#12
  | .lea d off => encPc9 0b1110#4 d off
  | .getc => encTrap 0x20
  | .out => encTrap 0x21
  | .puts => encTrap 0x22
  | .in_ => encTrap 0x23
  | .putsp => encTrap 0x24
  | .halt => encTrap 0x25
  | .trap code => encTrap code

/-! ### The opcode table as data -/

/-- One row of spec/opcode_table.json: a word belongs to it when its bits under the mask are the match. -/
structure Row where
  mnemonic : String
  mask : Word
  pattern : Word
  deriving DecidableEq, Repr

/-- The word has the row's bits. -/
def Row.hits (r : Row) (w : Word) : Bool := w &&& r.mask == r.pattern

/-- The rows of opcode 0 to 7, in the table's order. -/
def opcodeRowsLow : List Row :=
  [⟨"BR", 0xF000, 0x0000⟩, ⟨"ADD", 0xF020, 0x1000⟩, ⟨"ADD", 0xF020, 0x1020⟩, ⟨"LD", 0xF000, 0x2000⟩,
   ⟨"ST", 0xF000, 0x3000⟩, ⟨"JSR", 0xF800, 0x4800⟩, ⟨"JSRR", 0xF800, 0x4000⟩, ⟨"AND", 0xF020, 0x5000⟩,
   ⟨"AND", 0xF020, 0x5020⟩, ⟨"LDR", 0xF000, 0x6000⟩, ⟨"STR", 0xF000, 0x7000⟩]

/-- The rows of opcode 8 to 15, in the table's order; the generic TRAP row is last (lower priority). -/
def opcodeRowsHigh : List Row :=
  [⟨"RTI", 0xF000, 0x8000⟩, ⟨"NOT", 0xF000, 0x9000⟩, ⟨"LDI", 0xF000, 0xA000⟩, ⟨"STI", 0xF000, 0xB000⟩,
   ⟨"JMP", 0xF000, 0xC000⟩, ⟨"RES", 0xF000, 0xD000⟩, ⟨"LEA", 0xF000, 0xE000⟩, ⟨"GETC", 0xF0FF, 0xF020⟩,
   ⟨"OUT", 0xF0FF, 0xF021⟩, ⟨"PUTS", 0xF0FF, 0xF022⟩, ⟨"IN", 0xF0FF, 0xF023⟩, ⟨"PUTSP", 0xF0FF, 0xF024⟩,
   ⟨"HALT", 0xF0FF, 0xF025⟩, ⟨"TRAP", 0xF000, 0xF000⟩]

/-- spec/opcode_table.json, row by row. -/
def opcodeTable : List Row := opcodeRowsLow ++ opcodeRowsHigh

/-- The table's row of an instruction. -/
def Instr.row : Instr → Row
  | .br _ _ _ _ => ⟨"BR", 0xF000, 0x0000⟩
  | .addReg _ _ _ => ⟨"ADD", 0xF020, 0x1000⟩
  | .addImm _ _ _ => ⟨"ADD", 0xF020, 0x1020⟩
  | .ld _ _ => ⟨"LD", 0xF000, 0x2000⟩
  | .st _ _ => ⟨"ST", 0xF000, 0x3000⟩
  | .jsr _ => ⟨"JSR", 0xF800, 0x4800⟩
  | .jsrr _ => ⟨"JSRR", 0xF800, 0x4000⟩
  | .andReg _ _ _ => ⟨"AND", 0xF020, 0x5000⟩
  | .andImm _ _ _ => ⟨"AND", 0xF020, 0x5020⟩
  | .ldr _ _ _ => ⟨"LDR", 0xF000, 0x6000⟩
  | .str _ _ _ => ⟨"STR", 0xF000, 0x7000⟩
  | .rti => ⟨"RTI", 0xF000, 0x8000⟩
  | .not _ _ => ⟨"NOT", 0xF000, 0x9000⟩
  | .ldi _ _ => ⟨"LDI", 0xF000, 0xA000⟩
  | .sti _ _ => ⟨"STI", 0xF000, 0xB000⟩
  | .jmp _ => ⟨"JMP", 0xF000, 0xC000⟩
  | .res => ⟨"RES", 0xF000, 0xD000⟩
  | .lea _ _ => ⟨"LEA", 0xF000, 0xE000⟩
  | .getc => ⟨"GETC", 0xF0FF, 0xF020⟩
  | .out => ⟨"OUT", 0xF0FF, 0xF021⟩
  | .puts => ⟨"PUTS", 0xF0FF, 0xF022⟩
  | .in_ => ⟨"IN", 0xF0FF, 0xF023⟩
  | .putsp => ⟨"PUTSP", 0xF0FF, 0xF024⟩
  | .halt => ⟨"HALT", 0xF0FF, 0xF025⟩
  | .trap _ => ⟨"TRAP", 0xF000, 0xF000⟩

/-- The bits that decode ignores in a row's words (R68). -/
def Instr.ignoredBits : Instr → Word
  | .addReg _ _ _ | .andReg _ _ _ => 0x0018
  | .not _ _ => 0x003F
  | .jmp _ => 0x0E3F
  | .jsrr _ => 0x063F
  | .getc | .out | .puts | .in_ | .putsp | .halt | .trap _ => 0x0F00
  | .rti | .res => 0x0FFF
  | .br _ _ _ _ | .addImm _ _ _ | .ld _ _ | .st _ _ | .jsr _ | .andImm _ _ _ => 0x0000
  | .ldr _ _ _ | .str _ _ _ | .ldi _ _ | .sti _ _ | .lea _ _ => 0x0000

/-! ### The host's question -/

/-- The instruction that an instruction word of `nbits` table bits `w` decodes to; the bits above `nbits` are 0.
An instruction is exactly one 16-bit word (R60), so a longer one does not exist (log 20). -/
def decodeTableWord (nbits w : Nat) : Option Instr :=
  if nbits ≤ 16 then some (decode (BitVec.ofNat 16 (w % 2 ^ nbits))) else none

end Sys2Proof
end

