-- ==== Sys2Proof/Config.lean ====
section
/-! DEFINITION. The parameters of the block (00_scope.md R9, R10). The four the spec leaves OPEN and
the host's later input are constants without a body: nothing can be proved of their values, so a claim holds for
each of them. -/

namespace Sys2Proof.Config

/-- The order of JSRR's base read and link write (R93). -/
inductive JsrrBaseRead where
  | beforeLink
  | afterLink
  deriving DecidableEq, Repr, Inhabited

/-- What TRAP does with a code outside the six (R129). -/
inductive UnknownTrap where
  | fault
  | nop
  deriving DecidableEq, Repr, Inhabited

/-- KBSR_ADDR (R9): the one address whose reads are intercepted. -/
def kbsrAddr : Word := 0xFE00

/-- KBDR_ADDR (R10, D4). PRESUMED by the spec from general knowledge (log 11). -/
def kbdrAddr : Word := 0xFE02

/-- START_PC: DEFAULT_START_PC unless the host supplies another (R9, R10, D13; log 16). -/
def startPc : Word := 0x3000

/-- COND_RESET (R10, D12; log 15). -/
def condReset : Cond := .z

/-- UNKNOWN_TRAP: this spec's value is `fault` (R10, R129, D11; log 9). -/
def unknownTrap : UnknownTrap := .fault

/-- TRAP_WRITES_R7 (R10, R121, D9): OPEN (log 8). -/
opaque trapWritesR7 : Bool

/-- JSRR_BASE_READ (R10, R93, D10): OPEN (log 8). -/
opaque jsrrBaseRead : JsrrBaseRead

/-- IN_PROMPT (R10, R126, D15): OPEN, a finite byte string (log 8). -/
opaque inPrompt : List Byte

/-- HALT_MESSAGE (R10, R128, D15): OPEN, a finite byte string (log 8). -/
opaque haltMessage : List Byte

/-- `In.ready()` at the host's `polls`-th later poll: "a free input of the step" (20_memory.md R58, D14; log 3). -/
opaque inputReady : Nat → Bool

/-- The host's `bytes`-th later byte, counted by the bytes taken before it (10_state.md R31; log 3). -/
opaque inputByte : Nat → Byte

end Sys2Proof.Config
end

