-- ==== Sys2Proof/Machine/State.lean ====
section
/-! DEFINITION. The state of the block as plain data (10_state.md R20 to R37), the ways a step can stop, and
the state after reset (R36; 70_reset_and_hazards.md R170). -/

namespace Sys2Proof.Machine

/-- One listed word of memory: its address and its value. Memory is word-addressed and "contains no bytes"
(20_memory.md R46 to R48), so its cell is a word (log 1). -/
abbrev Cell := Nat × Word

/-- The listed words, addresses strictly rising, none equal to what an unlisted address reads as
(`Memory.wf`). -/
abbrev Memory := List Cell

/-- Why a run faulted (R24; 60_exceptions.md R151). -/
inductive FaultReason where
  /-- The 4-bit opcode value, 8 or 13 (R140, R141). -/
  | invalidOpcode (op : BitVec 4)
  /-- The 8-bit trap code (R129). -/
  | unknownTrap (code : BitVec 8)
  deriving DecidableEq, Repr

/-- The dispatcher's run state (R24). -/
inductive RunState where
  | running
  | halted
  | faulted (reason : FaultReason)
  deriving DecidableEq, Repr

/-- One queued event of the input channel: what the host answers the next time the block asks (log 3). -/
inductive InEvent where
  /-- A byte has arrived and not been consumed. -/
  | byte (b : Byte)
  /-- No byte has arrived yet. -/
  | notReady
  deriving DecidableEq, Repr

/-- What the host does once the queued events are used up (log 3). -/
inductive InLater where
  /-- The input has ended: no byte will ever arrive (D14). -/
  | ended
  /-- The input never ends: bytes go on coming, each one and the readiness at each poll a free value. The counters say
  how many of the later polls and bytes were used; they are the model's own. -/
  | endless (polls bytes : Nat)
  deriving DecidableEq, Repr

/-- The input channel `In` (R31), "a free input of the step" (20_memory.md R58): the host's queued events, first one
first, and what it does after them. -/
structure InChannel where
  events : List InEvent
  later : InLater
  deriving DecidableEq, Repr

/-- The whole state of the block (R37). KBSR and KBDR are cells of `mem` (R30). -/
structure State where
  /-- R0..R7 (R20). -/
  x : Vector Word 8
  /-- The program counter (R22). -/
  pc : Word
  /-- The condition register (R25). -/
  cond : Cond
  /-- The 65536 words of memory (R29). -/
  mem : Memory
  /-- The run state (R24). -/
  run : RunState
  /-- The input channel (R31, R35). -/
  inp : InChannel
  /-- The output channel, every byte put so far, oldest first (R32). -/
  out : List Byte
  deriving DecidableEq, Repr

/-- The ways a step has no next state. Each is a stop the spec itself gives: no step is enabled, or the
instruction never completes. None of them is an exception of the block (those are next states whose run
state is FAULTED, R150). -/
inductive Fault where
  /-- Raised by `step` in HALTED: "No step is enabled in HALTED or FAULTED" (R175). Safe: the block does nothing. -/
  | notEnabledHalted
  /-- Raised by `step` in FAULTED, with the reason (R150, R175). Safe: the block does nothing. -/
  | notEnabledFaulted (reason : FaultReason)
  /-- Raised by GETC and IN when no byte will ever arrive: "In.wait() then never returns" (R31, R130, D14).
  It holds the state the block waits in (for IN the prompt is already output, R126). Safe: the block stays there. -/
  | waitsForever (waiting : State)
  /-- Raised by PUTS and PUTSP when no word of memory is 0x0000: "the step is an infinite execution. The model
  must not give it a completing step" (R130, I14). It holds the state in which the walk began. Safe. -/
  | endlessString (walking : State)
  deriving DecidableEq, Repr

/-- A refusal: the model has no meaning for the instruction. -/
inductive Refusal where
  /-- Raised by no arm now: every instruction of the table has its meaning. Safe. -/
  | notModelled (mnemonic : String)
  deriving DecidableEq, Repr

/-- The state right after reset, before any image is loaded (R36, R170). `inp`: R36 says "whatever the host has
queued", which no value here can be; free answers from a host whose input does not end are a DESIGN CHOICE (log 4),
and `State.boot` takes the channel as an argument. -/
def State.reset : State where
  x := Vector.replicate 8 0
  pc := Config.startPc
  cond := Config.condReset
  mem := []
  run := .running
  inp := { events := [], later := .endless 0 0 }
  out := []

end Sys2Proof.Machine
end

