-- ==== Sys2Proof/Machine/Flags.lean ====
section
/-! DEFINITION. The condition register's computations (10_state.md R25, R26; 30_encoding.md R64). -/

namespace Sys2Proof.Machine

/-- The 3-bit one-hot value of COND (R25). PRESUMED by the spec from general knowledge (D3; log 10). -/
def condBits : Cond → BitVec 3
  | .n => 0b100
  | .z => 0b010
  | .p => 0b001

/-- `setcc`'s classification of a result (R26). -/
def condOf (v : Word) : Cond :=
  if v = 0x0000 then .z else if v.getLsbD 15 then .n else .p

/-- The BR test `(w[11:9] & cond) != 0` on the condition set n, z, p (R64, R90). -/
def branchTaken (n z p : Bool) (c : Cond) : Bool :=
  (BitVec.ofBool n ++ BitVec.ofBool z ++ BitVec.ofBool p) &&& condBits c != 0#3

end Sys2Proof.Machine
end

