-- ==== Sys2Proof/Machine/Ops.lean ====
section
/-! DEFINITION. The named operations over registers, memory, the channels and the run state: the primitives of
00_scope.md R14. Taking a fault is one of them (`State.raise`); the block has no return from one
(60_exceptions.md R153, R154). -/

namespace Sys2Proof.Machine

/-! ### Memory as data (10_state.md R29) -/

/-- What an address that is not listed reads as: memory is "zero-initialized" (R36, R170). -/
def Memory.unlisted : Word := 0x0000

/-- `mem[a]`. -/
def Memory.read : Memory → Nat → Word
  | [], _ => Memory.unlisted
  | (k, v) :: rest, a => if k = a then v else Memory.read rest a

/-- List the word at its place in the rising order, replacing the one that is there. -/
def Memory.insert (a : Nat) (v : Word) : Memory → Memory
  | [] => [(a, v)]
  | (k, w) :: rest =>
    if a < k then (a, v) :: (k, w) :: rest
    else if a = k then (a, v) :: rest
    else (k, w) :: Memory.insert a v rest

/-- `mem[a] <- v`; writing what an unlisted address reads as takes the address off the list. -/
def Memory.write (m : Memory) (a : Nat) (v : Word) : Memory :=
  if v = Memory.unlisted then m.filter (fun c => c.1 ≠ a) else Memory.insert a v m

/-- The canonical form: addresses strictly rising and below 65536, no entry equal to an unlisted word. -/
abbrev Memory.wf (m : Memory) : Prop :=
  m.Pairwise (fun c d => c.1 < d.1) ∧ ∀ c ∈ m, c.1 < 65536 ∧ c.2 ≠ Memory.unlisted

/-! ### The input channel (10_state.md R31; 20_memory.md R58) -/

/-- `In.ready()` and, when it answers true, `In.take()`: the byte taken, if one was ready, and the channel after. -/
def InChannel.poll : InChannel → Option Byte × InChannel
  | ⟨.byte b :: rest, later⟩ => (some b, ⟨rest, later⟩)
  | ⟨.notReady :: rest, later⟩ => (none, ⟨rest, later⟩)
  | ⟨[], .ended⟩ => (none, ⟨[], .ended⟩)
  | ⟨[], .endless polls bytes⟩ =>
    if Config.inputReady polls then (some (Config.inputByte bytes), ⟨[], .endless (polls + 1) (bytes + 1)⟩)
    else (none, ⟨[], .endless (polls + 1) bytes⟩)

/-- `In.wait()` over the queued events and what follows them. -/
def waitAmong : List InEvent → InLater → Option (Byte × InChannel)
  | .byte b :: rest, later => some (b, ⟨rest, later⟩)
  | .notReady :: rest, later => waitAmong rest later
  | [], .ended => none
  | [], .endless polls bytes => some (Config.inputByte bytes, ⟨[], .endless polls (bytes + 1)⟩)

/-- `In.wait()`: the first byte to come and the channel after it; none when no byte will ever arrive (D14). -/
def InChannel.wait (c : InChannel) : Option (Byte × InChannel) := waitAmong c.events c.later

/-- The `i`-th byte that will still arrive (0 is the next one), none when the input ends before it. -/
def byteAmong : List InEvent → InLater → Nat → Option Byte
  | .byte b :: _, _, 0 => some b
  | .byte _ :: rest, later, i + 1 => byteAmong rest later i
  | .notReady :: rest, later, i => byteAmong rest later i
  | [], .ended, _ => none
  | [], .endless _ bytes, i => some (Config.inputByte (bytes + i))

/-- The `i`-th byte that will still arrive from the channel. -/
def InChannel.byteToCome (c : InChannel) (i : Nat) : Option Byte := byteAmong c.events c.later i

/-- `d` is `c` after `j` bytes were taken from its front: the bytes still to come are those of `c` from the `j`-th on,
and no queued event was added. -/
def InChannel.Took (j : Nat) (c d : InChannel) : Prop :=
  (∀ i, d.byteToCome i = c.byteToCome (j + i)) ∧ d.events <:+ c.events

/-! ### Registers -/

/-- `x[i]` (R20). -/
def State.reg (s : State) (r : Reg) : Word := s.x[r]

/-- `x[i] <- v` (R20). -/
def State.setReg (s : State) (r : Reg) (v : Word) : State := { s with x := s.x.set r v }

/-- `pc <- target` (R22). -/
def State.setPc (s : State) (a : Word) : State := { s with pc := a }

/-- `setcc(v)` (R26). -/
def State.setcc (s : State) (v : Word) : State := { s with cond := condOf v }

/-- What every register-defining instruction does with its result: `x[DR] <- r; setcc(r)` (R27). -/
def State.define (s : State) (dr : Reg) (v : Word) : State := (s.setReg dr v).setcc v

/-- What is left of the input channel after the block used some of it (R31). -/
def State.setInp (s : State) (c : InChannel) : State := { s with inp := c }

/-! ### Memory (20_memory.md R41 to R45) -/

/-- `mem[a]`, no device effect (R29). -/
def State.peek (s : State) (a : Word) : Word := Memory.read s.mem a.toNat

/-- `mem[a] <- v`, no device effect. -/
def State.poke (s : State) (a v : Word) : State := { s with mem := Memory.write s.mem a.toNat v }

/-- The keyboard poll inside MemRead (R41, R42): the whole-word status 0x8000 and the byte, or the status 0x0000. -/
def State.pollKeyboard (s : State) : State :=
  let s' := s.setInp (InChannel.poll s.inp).2
  match (InChannel.poll s.inp).1 with
  | some b => (s'.poke Config.kbsrAddr 0x8000).poke Config.kbdrAddr (b.setWidth 16)
  | none => s'.poke Config.kbsrAddr 0x0000

/-- The device effect of reading address `a`: a poll at KBSR_ADDR, nothing elsewhere (R43). -/
def State.intercept (s : State) (a : Word) : State :=
  if a = Config.kbsrAddr then s.pollKeyboard else s

/-- `MemRead(a, 1)` (R41): the word returned and the state after. -/
def State.memRead (s : State) (a : Word) : Word × State := ((s.intercept a).peek a, s.intercept a)

/-- `MemWrite(a, 1, v)`: stores unconditionally, no device effect (R44). -/
def State.memWrite (s : State) (a v : Word) : State := s.poke a v

/-- The fetch phase (R175): `w <- MemRead(pc, 1); pc <- pc + 1`. -/
def State.fetch (s : State) : Word × State :=
  let r := s.memRead s.pc
  (r.1, r.2.setPc (s.pc + 1))

/-- The words from address `a` up to the first zero word, by raw reads, at most `n` words looked at; none when
all of them are nonzero. -/
def State.wordsFrom (s : State) : Nat → Word → Option (List Word)
  | 0, _ => none
  | n + 1, a =>
    if s.peek a = 0x0000 then some []
    else (State.wordsFrom s n (a + 1)).map (fun ws => s.peek a :: ws)

/-- The string at `a` as PUTS and PUTSP walk it (R125, R127): the walk wraps, and when none of the 65536 words is
zero it never ends (R130). -/
def State.stringAt (s : State) (a : Word) : Option (List Word) := s.wordsFrom 65536 a

/-! ### The output channel and the run state -/

/-- `Out.put(b)` for each byte in order (R32). -/
def State.put (s : State) (bs : List Byte) : State := { s with out := s.out ++ bs }

/-- `halt()` (R24). -/
def State.halt (s : State) : State := { s with run := .halted }

/-- `raise Fault(reason)`: "run <- FAULTED(reason) -- no other state changes; no later fetch" (R150). -/
def State.raise (s : State) (reason : FaultReason) : State := { s with run := .faulted reason }

end Sys2Proof.Machine
end

