-- ==== Sys2Proof/Machine/Operands.lean ====
section
/-! DEFINITION. The operand forms: sign and zero extension (00_scope.md R13), immediates and offsets
(30_encoding.md R65), the addressing modes (42_load.md R104), and the characters of a word (20_memory.md R48). -/

namespace Sys2Proof.Machine

/-- `sext_N` of an N-bit field: the 16-bit word with the same two's-complement value (R13). -/
def sext {n : Nat} (f : BitVec n) : Word := f.signExtend 16

/-- `sext_N(v)` of the low N bits of a word (R13). -/
def sextLow (n : Nat) (v : Word) : Word := sext (v.extractLsb' 0 n)

/-- `zext_N(v)`: the field `v[N-1:0]` as a word with zeros above bit N-1 (R13). -/
def zextLow (n : Nat) (v : Word) : Word := (v.extractLsb' 0 n).setWidth 16

/-- `zext_8` of a byte (R13). -/
def zext8 (b : Byte) : Word := b.setWidth 16

/-- `w[7:0]`. -/
def lowByte (w : Word) : Byte := w.extractLsb' 0 8

/-- `w[15:8]`. -/
def highByte (w : Word) : Byte := w.extractLsb' 8 8

/-- The PC-relative effective address `pc + sext(offset)`, modulo 65536 (R104). -/
def State.pcRel (s : State) {n : Nat} (off : BitVec n) : Word := s.pc + sext off

/-- The base plus offset effective address `x[BaseR] + sext_6(offset6)`, modulo 65536 (R104). -/
def State.baseOffset (s : State) (base : Reg) (off : BitVec 6) : Word := s.reg base + sext off

/-- One character per word, the low byte (PUTS, R125). -/
def putsBytes (ws : List Word) : List Byte := ws.map lowByte

/-- Two characters of a word: the low byte always, the high byte if nonzero (PUTSP, R127). -/
def packedBytes (w : Word) : List Byte :=
  if highByte w = 0x00 then [lowByte w] else [lowByte w, highByte w]

/-- The characters of the words in order (PUTSP, R127). -/
def putspBytes (ws : List Word) : List Byte := ws.flatMap packedBytes

end Sys2Proof.Machine
end

