-- ==== Sys2Proof/Machine/Control.lean ====
section
/-! DEFINITION. BR, JMP, JSR, JSRR (41_control.md R90 to R93). In the execute phase pc is already the
instruction's address plus 1 (00_scope.md R15). -/

namespace Sys2Proof.Machine

/-- BR (R90): the offset is added, not multiplied (90_conflicts.md C1). -/
def execBr (n z p : Bool) (off : BitVec 9) (s : State) : Host.Outcome State Fault Refusal :=
  .next (s.setPc (if branchTaken n z p s.cond then s.pcRel off else s.pc))

/-- JMP (R91). -/
def execJmp (base : Reg) (s : State) : Host.Outcome State Fault Refusal :=
  .next (s.setPc (s.reg base))

/-- JSR (R92): R7 is the return address, the target is relative to it. -/
def execJsr (off : BitVec 11) (s : State) : Host.Outcome State Fault Refusal :=
  .next ((s.setReg 7 s.pc).setPc (s.pcRel off))

/-- JSRR (R93): the two orders of the OPEN parameter JSRR_BASE_READ differ when BaseR is R7 (log 8). -/
def execJsrr (base : Reg) (s : State) : Host.Outcome State Fault Refusal :=
  .next <|
    match Config.jsrrBaseRead with
    | .beforeLink => (s.setReg 7 s.pc).setPc (s.reg base)
    | .afterLink => (s.setReg 7 s.pc).setPc ((s.setReg 7 s.pc).reg base)

end Sys2Proof.Machine
end

