-- ==== Sys2Proof/Machine/Invalid.lean ====
section
/-! DEFINITION. The two invalid opcodes (45_invalid.md R140, R141): each always takes the fatal fault. -/

namespace Sys2Proof.Machine

/-- RTI (R140): `raise Fault(InvalidOpcode(0x8))`. -/
def execRti (s : State) : Host.Outcome State Fault Refusal := .next (s.raise (.invalidOpcode 0x8))

/-- The reserved opcode (R141): `raise Fault(InvalidOpcode(0xD))`. -/
def execRes (s : State) : Host.Outcome State Fault Refusal := .next (s.raise (.invalidOpcode 0xD))

end Sys2Proof.Machine
end

