-- ==== Sys2Proof/Machine/Load.lean ====
section
/-! DEFINITION. LD, LDI, LDR, LEA (42_load.md R100 to R103). Loads read through the interception. -/

namespace Sys2Proof.Machine

/-- LD (R100). -/
def execLd (dr : Reg) (off : BitVec 9) (s : State) : Host.Outcome State Fault Refusal :=
  let r := s.memRead (s.pcRel off)
  .next (r.2.define dr r.1)

/-- LDI (R101): the pointer read, then the data read, both through the interception. -/
def execLdi (dr : Reg) (off : BitVec 9) (s : State) : Host.Outcome State Fault Refusal :=
  let ptr := s.memRead (s.pcRel off)
  let r := ptr.2.memRead ptr.1
  .next (r.2.define dr r.1)

/-- LDR (R102): the base is read before DR is written. -/
def execLdr (dr base : Reg) (off : BitVec 6) (s : State) : Host.Outcome State Fault Refusal :=
  let r := s.memRead (s.baseOffset base off)
  .next (r.2.define dr r.1)

/-- LEA (R103): reads no memory. -/
def execLea (dr : Reg) (off : BitVec 9) (s : State) : Host.Outcome State Fault Refusal :=
  .next (s.define dr (s.pcRel off))

end Sys2Proof.Machine
end

