-- ==== Sys2Proof/Machine/Operate.lean ====
section
/-! DEFINITION. ADD, AND, NOT (40_operate.md R80 to R84). -/

namespace Sys2Proof.Machine

/-- ADD, register form (R80). -/
def execAddReg (dr sr1 sr2 : Reg) (s : State) : Host.Outcome State Fault Refusal :=
  .next (s.define dr (s.reg sr1 + s.reg sr2))

/-- ADD, immediate form (R81). -/
def execAddImm (dr sr1 : Reg) (imm : BitVec 5) (s : State) : Host.Outcome State Fault Refusal :=
  .next (s.define dr (s.reg sr1 + sext imm))

/-- AND, register form, bitwise (R82; 90_conflicts.md C1). -/
def execAndReg (dr sr1 sr2 : Reg) (s : State) : Host.Outcome State Fault Refusal :=
  .next (s.define dr (s.reg sr1 &&& s.reg sr2))

/-- AND, immediate form, bitwise (R83; 90_conflicts.md C1). -/
def execAndImm (dr sr1 : Reg) (imm : BitVec 5) (s : State) : Host.Outcome State Fault Refusal :=
  .next (s.define dr (s.reg sr1 &&& sext imm))

/-- NOT (R84). -/
def execNot (dr sr : Reg) (s : State) : Host.Outcome State Fault Refusal :=
  .next (s.define dr (~~~ s.reg sr))

end Sys2Proof.Machine
end

