-- ==== Sys2Proof/Machine/Store.lean ====
section
/-! DEFINITION. ST, STI, STR (43_store.md R110 to R112). -/

namespace Sys2Proof.Machine

/-- ST (R110): a single, direct store (90_conflicts.md C1). -/
def execSt (sr : Reg) (off : BitVec 9) (s : State) : Host.Outcome State Fault Refusal :=
  .next (s.memWrite (s.pcRel off) (s.reg sr))

/-- STI (R111): the pointer read goes through the interception and happens before the write. -/
def execSti (sr : Reg) (off : BitVec 9) (s : State) : Host.Outcome State Fault Refusal :=
  let ptr := s.memRead (s.pcRel off)
  .next (ptr.2.memWrite ptr.1 (s.reg sr))

/-- STR (R112). -/
def execStr (sr base : Reg) (off : BitVec 6) (s : State) : Host.Outcome State Fault Refusal :=
  .next (s.memWrite (s.baseOffset base off) (s.reg sr))

end Sys2Proof.Machine
end

