-- ==== Sys2Proof/Machine/Trap.lean ====
section
/-! DEFINITION. TRAP and its six routines, performed by the block itself (44_trap.md R120 to R130). No routine
writes COND or pc. Each row's meaning is the link of R121 and then its routine. -/

namespace Sys2Proof.Machine

/-- "if TRAP_WRITES_R7 then x[7] <- pc" (R120, R121; OPEN, log 8). -/
def State.trapLink (s : State) : State :=
  s.setReg 7 (if Config.trapWritesR7 then s.pc else s.reg 7)

/-- The GETC routine (R123): blocks until a byte comes. -/
def getcRoutine (s : State) : Host.Outcome State Fault Refusal :=
  match InChannel.wait s.inp with
  | some (c, rest) => .next ((s.setInp rest).setReg 0 (zext8 c))
  | none => .fault (.waitsForever s)

/-- The OUT routine (R124). -/
def outRoutine (s : State) : Host.Outcome State Fault Refusal :=
  .next (s.put [lowByte (s.reg 0)])

/-- The PUTS routine (R125). -/
def putsRoutine (s : State) : Host.Outcome State Fault Refusal :=
  match s.stringAt (s.reg 0) with
  | some ws => .next (s.put (putsBytes ws))
  | none => .fault (.endlessString s)

/-- The IN routine (R126): the prompt, the wait, the echo, R0. The prompt is output before the wait. -/
def inRoutine (s : State) : Host.Outcome State Fault Refusal :=
  match InChannel.wait s.inp with
  | some (c, rest) => .next (((s.put (Config.inPrompt ++ [c])).setInp rest).setReg 0 (zext8 c))
  | none => .fault (.waitsForever (s.put Config.inPrompt))

/-- The PUTSP routine (R127). -/
def putspRoutine (s : State) : Host.Outcome State Fault Refusal :=
  match s.stringAt (s.reg 0) with
  | some ws => .next (s.put (putspBytes ws))
  | none => .fault (.endlessString s)

/-- The HALT routine (R128): the notice, then `halt()`. -/
def haltRoutine (s : State) : Host.Outcome State Fault Refusal :=
  .next (s.put Config.haltMessage).halt

/-- UNKNOWN(code) (R129): this spec's UNKNOWN_TRAP is `fault` (log 9). -/
def unknownTrap (code : BitVec 8) (s : State) : Host.Outcome State Fault Refusal :=
  match Config.unknownTrap with
  | .fault => .next (s.raise (.unknownTrap code))
  | .nop => .next s

/-- GETC (R120, R123). -/
def execGetc (s : State) : Host.Outcome State Fault Refusal := getcRoutine s.trapLink

/-- OUT (R120, R124). -/
def execOut (s : State) : Host.Outcome State Fault Refusal := outRoutine s.trapLink

/-- PUTS (R120, R125). -/
def execPuts (s : State) : Host.Outcome State Fault Refusal := putsRoutine s.trapLink

/-- IN (R120, R126). -/
def execIn (s : State) : Host.Outcome State Fault Refusal := inRoutine s.trapLink

/-- PUTSP (R120, R127). -/
def execPutsp (s : State) : Host.Outcome State Fault Refusal := putspRoutine s.trapLink

/-- HALT (R120, R128). -/
def execHalt (s : State) : Host.Outcome State Fault Refusal := haltRoutine s.trapLink

/-- TRAP (R120): the link, then the dispatch on the code. Decoding gives this row only codes outside the six
(log 19), for which the case is UNKNOWN(code) (R129). -/
def execTrap (code : BitVec 8) (s : State) : Host.Outcome State Fault Refusal :=
  let t := s.trapLink
  if code = 0x20 then getcRoutine t
  else if code = 0x21 then outRoutine t
  else if code = 0x22 then putsRoutine t
  else if code = 0x23 then inRoutine t
  else if code = 0x24 then putspRoutine t
  else if code = 0x25 then haltRoutine t
  else unknownTrap code t

end Sys2Proof.Machine
end

