-- ==== Sys2Proof/Machine/Loader.lean ====
section
/-! DEFINITION. The image loader and the boot order (70_reset_and_hazards.md R171 to R173): what gives memory its
contents before the first fetch. The loader is surrounding software (00_scope.md R7), not a step. -/

namespace Sys2Proof.Machine

/-- A file the host gives: its bytes, or none when the stream cannot be read (R173). -/
abbrev Image := Option (List Byte)

/-- Copy big-endian words upward from address `a`, stopping at 0xFFFF; a trailing odd byte is ignored (R172). -/
def loadWords : List Byte → Nat → Memory → Memory
  | hi :: lo :: rest, a, m => if a < 65536 then loadWords rest (a + 1) (Memory.write m a (hi ++ lo)) else m
  | _, _, m => m

/-- Load one image: none is a load failure, which writes no memory (R172, R173, D18). -/
def loadImage (image : Image) (m : Memory) : Option Memory :=
  match image with
  | some (hi :: lo :: rest) => some (loadWords rest (hi ++ lo : Word).toNat m)
  | some [_] | some [] | none => none

/-- Load the images in the host's order: the memory after them, and for each image whether it was loaded
("reported to the caller as a load failure per file, not fatal", R173). -/
def loadImages : List Image → Memory → Memory × List Bool
  | [], m => (m, [])
  | image :: rest, m =>
    match loadImage image m with
    | some m' => ((loadImages rest m').1, true :: (loadImages rest m').2)
    | none => ((loadImages rest m).1, false :: (loadImages rest m).2)

/-- The state before the first fetch (R171): reset, then the images; the host supplies START_PC (D13) and the
input channel (R36). The loader writes only memory. -/
def State.boot (startPc : Word) (images : List Image) (inp : InChannel) : State :=
  { State.reset with pc := startPc, mem := (loadImages images State.reset.mem).1, inp := inp }

end Sys2Proof.Machine
end

