-- ==== Sys2Proof/Machine/Step.lean ====
section
/-! DEFINITION. One step of the dispatcher (70_reset_and_hazards.md R175), and the host's `withFetchWord`. -/

namespace Sys2Proof.Machine

/-- "One step of the dispatcher, enabled only when run = RUNNING": fetch, increment, execute (R175). -/
def step (s : State) : Host.Outcome State Fault Refusal :=
  match s.run with
  | .running => exec (decode s.fetch.1) s.fetch.2
  | .halted => .fault .notEnabledHalted
  | .faulted reason => .fault (.notEnabledFaulted reason)

/-- The instruction word of `nbits` table bits `w` stored at pc, where the next fetch reads it (a pc of 0xFE00, where
a fetch polls, is the one place that does not read what is stored; log 20). -/
def State.withFetchWord (s : State) (nbits w : Nat) : State :=
  s.poke s.pc (BitVec.ofNat 16 (w % 2 ^ nbits))

end Sys2Proof.Machine
end

