-- ==== Sys2Proof/Safety.lean ====
section
/-! DEFINITION. The terms that claims use: what a state keeps, which instruction may write what, the ends of a run
(70_reset_and_hazards.md R176), and the invariant of the model's memory. -/

namespace Sys2Proof.Machine

/-! ### Frames -/

/-- Every general register outside `rs` holds in `t` what it held in `s`. -/
def RegsKept (s t : State) (rs : List Reg) : Prop := ∀ r : Reg, r ∉ rs → t.reg r = s.reg r

/-- Every address outside `as` reads in `t` what it read in `s`. -/
def MemKept (s t : State) (as : List Word) : Prop := ∀ a : Word, a ∉ as → t.peek a = s.peek a

/-- The two channels are as before. -/
def ChannelsKept (s t : State) : Prop := t.inp = s.inp ∧ t.out = s.out

/-- `t` is `s` after a register-defining instruction without a memory read: DR holds `v`, COND is set from it, and
nothing else differs. -/
def DefinesOnly (s t : State) (dr : Reg) (v : Word) : Prop :=
  t.reg dr = v ∧ t.cond = condOf v ∧ RegsKept s t [dr] ∧ MemKept s t [] ∧ t.pc = s.pc ∧ t.run = s.run ∧
    ChannelsKept s t

/-- `t` is `s` but for pc. -/
def JumpsOnly (s t : State) (target : Word) : Prop :=
  t.pc = target ∧ RegsKept s t [] ∧ t.cond = s.cond ∧ MemKept s t [] ∧ t.run = s.run ∧ ChannelsKept s t

/-- `t` is `s` after a fatal fault: "run <- FAULTED(reason) -- no other state changes" (R150). -/
def FaultsOnly (s t : State) (reason : FaultReason) : Prop :=
  t.run = .faulted reason ∧ RegsKept s t [] ∧ t.pc = s.pc ∧ t.cond = s.cond ∧ MemKept s t [] ∧ ChannelsKept s t

/-- R7 after a TRAP: "if TRAP_WRITES_R7 then x[7] <- pc" (R120, R121), for either value of the parameter. -/
def Linked (s t : State) : Prop := t.reg 7 = if Config.trapWritesR7 then s.pc else s.reg 7

/-- The `k` words from address `a` upward, modulo 65536. -/
def wordsAt (s : State) (a : Word) (k : Nat) : List Word :=
  (List.range k).map fun j => s.peek (a + BitVec.ofNat 16 j)

/-- The first zero word from address `a` upward (modulo 65536) is the `k`-th. -/
def TerminatedAt (s : State) (a : Word) (k : Nat) : Prop :=
  k < 65536 ∧ s.peek (a + BitVec.ofNat 16 k) = 0x0000 ∧ ∀ j < k, s.peek (a + BitVec.ofNat 16 j) ≠ 0x0000

/-- The cells that reading the addresses `as` may write: the keyboard words when one of them is KBSR_ADDR
(20_memory.md R41). -/
def pollCells (as : List Word) : List Word := if 0xFE00 ∈ as then [0xFE00, 0xFE02] else []

/-! ### The input -/

/-- What `n` polls in a row answer, and the channel after them. -/
def InChannel.polls : Nat → InChannel → List (Option Byte) × InChannel
  | 0, c => ([], c)
  | n + 1, c =>
    let r := InChannel.poll c
    let rs := InChannel.polls n r.2
    (r.1 :: rs.1, rs.2)

/-! ### What an instruction may write, from the rules' own lists -/

/-- The destination of a register-defining instruction: "ADD, AND, NOT, LD, LDI, LDR, LEA" (R17, R27). -/
def definedReg : Instr → Option Reg
  | .addReg dr _ _ | .addImm dr _ _ | .andReg dr _ _ | .andImm dr _ _ | .not dr _ => some dr
  | .ld dr _ | .ldi dr _ | .ldr dr _ _ | .lea dr _ => some dr
  | .br _ _ _ _ | .st _ _ | .jsr _ | .jsrr _ | .str _ _ _ | .rti | .sti _ _ | .jmp _ | .res => none
  | .getc | .out | .puts | .in_ | .putsp | .halt | .trap _ => none

/-- The rows of the TRAP opcode. -/
def isTrapRow : Instr → Bool
  | .getc | .out | .puts | .in_ | .putsp | .halt | .trap _ => true
  | .br _ _ _ _ | .addReg _ _ _ | .addImm _ _ _ | .ld _ _ | .st _ _ | .jsr _ | .jsrr _ => false
  | .andReg _ _ _ | .andImm _ _ _ | .ldr _ _ _ | .str _ _ _ | .rti | .not _ _ => false
  | .ldi _ _ | .sti _ _ | .jmp _ | .res | .lea _ _ => false

/-- The writers of the general registers (R21): DR; R7 by JSR and JSRR; R0 by GETC and IN; R7 by TRAP when
TRAP_WRITES_R7 is true. -/
def regsWritten : Instr → List Reg
  | .addReg dr _ _ | .addImm dr _ _ | .andReg dr _ _ | .andImm dr _ _ | .not dr _ => [dr]
  | .ld dr _ | .ldi dr _ | .ldr dr _ _ | .lea dr _ => [dr]
  | .jsr _ | .jsrr _ => [7]
  | .getc | .in_ => if Config.trapWritesR7 then [0, 7] else [0]
  | .out | .puts | .putsp | .halt | .trap _ => if Config.trapWritesR7 then [7] else []
  | .br _ _ _ _ | .st _ _ | .str _ _ _ | .rti | .sti _ _ | .jmp _ | .res => []

/-- The writers of pc in the execute phase: BR, JMP, JSR and JSRR (R23). -/
def mayWritePc : Instr → Bool
  | .br _ _ _ _ | .jmp _ | .jsr _ | .jsrr _ => true
  | .addReg _ _ _ | .addImm _ _ _ | .ld _ _ | .st _ _ | .andReg _ _ _ | .andImm _ _ _ => false
  | .ldr _ _ _ | .str _ _ _ | .rti | .not _ _ | .ldi _ _ | .sti _ _ | .res | .lea _ _ => false
  | .getc | .out | .puts | .in_ | .putsp | .halt | .trap _ => false

/-- The addresses an instruction reads by MemRead in its execute phase, in order (R45): LD, LDI (both reads), LDR,
STI (its pointer read). -/
def addressesRead (i : Instr) (s : State) : List Word :=
  match i with
  | .ld _ off | .sti _ off => [s.pcRel off]
  | .ldi _ off => [s.pcRel off, (s.memRead (s.pcRel off)).1]
  | .ldr _ base off => [s.baseOffset base off]
  | .br _ _ _ _ | .addReg _ _ _ | .addImm _ _ _ | .st _ _ | .jsr _ | .jsrr _ | .andReg _ _ _ => []
  | .andImm _ _ _ | .str _ _ _ | .rti | .not _ _ | .jmp _ | .res | .lea _ _ => []
  | .getc | .out | .puts | .in_ | .putsp | .halt | .trap _ => []

/-- The address an instruction stores to by MemWrite (R45): ST, STI, STR. -/
def addressStored (i : Instr) (s : State) : List Word :=
  match i with
  | .st _ off => [s.pcRel off]
  | .sti _ off => [(s.memRead (s.pcRel off)).1]
  | .str _ base off => [s.baseOffset base off]
  | .br _ _ _ _ | .addReg _ _ _ | .addImm _ _ _ | .ld _ _ | .jsr _ | .jsrr _ | .andReg _ _ _ => []
  | .andImm _ _ _ | .ldr _ _ _ | .rti | .not _ _ | .ldi _ _ | .jmp _ | .res | .lea _ _ => []
  | .getc | .out | .puts | .in_ | .putsp | .halt | .trap _ => []

/-! ### The ends of a run (R176) -/

/-- The successful end: run = HALTED. -/
def State.halted (s : State) : Prop := s.run = .halted

/-- The faulted end: run = FAULTED(reason). -/
def State.faulted (s : State) : Prop := ∃ reason, s.run = .faulted reason

/-- `t` is reached from `s` by some number of steps. -/
inductive Reaches (s : State) : State → Prop where
  | refl : Reaches s s
  | step {t u : State} : Reaches s t → step t = .next u → Reaches s u

/-- A safe start: no run from it faults, and no run from it is stuck while RUNNING. -/
def State.safe (s : State) : Prop :=
  ∀ t, Reaches s t → ¬ t.faulted ∧ (t.run = .running → ∃ u, step t = .next u)

/-! ### The invariant -/

/-- Memory is in its canonical form. -/
def State.Inv (s : State) : Prop := Memory.wf s.mem

end Sys2Proof.Machine
end

