-- ==== Sys2Proof/Certificates/Slice0/Obligations.lean ====
section
/-! DEFINITION. The statements for the provers. Each docstring names the rule of spec/ it formalises. In the execute
phase pc already holds the instruction's address plus 1 (00_scope.md R15). Where a choice of the model or a decision
the spec marks as its own is part of a statement, its docstring says so. -/

open Sys2Proof Sys2Proof.Machine

/-! ### Operate instructions -/

/-- R80. The position of SR2 in the encoding clause is PRESUMED by the spec (log 10). -/
def Obligations.AddRegisterFormSumsModulo65536 : Prop :=
  (∀ (dr sr1 sr2 : Reg) (xx : BitVec 2),
    decode (0b0001#4 ++ regBits dr ++ regBits sr1 ++ 0b0#1 ++ xx ++ regBits sr2) = .addReg dr sr1 sr2) ∧
  ∀ (dr sr1 sr2 : Reg) (s : State), ∃ t, exec (.addReg dr sr1 sr2) s = .next t ∧
    DefinesOnly s t dr (BitVec.ofNat 16 (((s.reg sr1).toNat + (s.reg sr2).toNat) % 65536))

/-- R81. -/
def Obligations.AddImmediateFormAddsSignExtendedImm5 : Prop :=
  (∀ (dr sr1 : Reg) (imm : BitVec 5),
    decode (0b0001#4 ++ regBits dr ++ regBits sr1 ++ 0b1#1 ++ imm) = .addImm dr sr1 imm) ∧
  ∀ (dr sr1 : Reg) (imm : BitVec 5) (s : State), ∃ t, exec (.addImm dr sr1 imm) s = .next t ∧
    DefinesOnly s t dr (BitVec.ofInt 16 (((s.reg sr1).toNat : Int) + imm.toInt))

/-- R82. Bit by bit, so that an addition would refute it (C1). The opcode number and field positions of the encoding clause are PRESUMED by the spec (log 10). -/
def Obligations.AndRegisterFormIsBitwise : Prop :=
  (∀ (dr sr1 sr2 : Reg) (xx : BitVec 2),
    decode (0b0101#4 ++ regBits dr ++ regBits sr1 ++ 0b0#1 ++ xx ++ regBits sr2) = .andReg dr sr1 sr2) ∧
  ∀ (dr sr1 sr2 : Reg) (s : State), ∃ t v, exec (.andReg dr sr1 sr2) s = .next t ∧ DefinesOnly s t dr v ∧
    ∀ k : Nat, v.getLsbD k = ((s.reg sr1).getLsbD k && (s.reg sr2).getLsbD k)

/-- R83. Bits 15:5 of the immediate are its sign, bit 4. The opcode number and field positions of the encoding clause are PRESUMED by the spec (log 10). -/
def Obligations.AndImmediateFormIsBitwiseWithSignExtension : Prop :=
  (∀ (dr sr1 : Reg) (imm : BitVec 5),
    decode (0b0101#4 ++ regBits dr ++ regBits sr1 ++ 0b1#1 ++ imm) = .andImm dr sr1 imm) ∧
  ∀ (dr sr1 : Reg) (imm : BitVec 5) (s : State), ∃ t v, exec (.andImm dr sr1 imm) s = .next t ∧
    DefinesOnly s t dr v ∧
    ∀ k : Nat, v.getLsbD k = ((s.reg sr1).getLsbD k && (if k < 4 then imm.getLsbD k else imm.getLsbD 4))

/-- R84. The opcode number and field positions of the encoding clause are PRESUMED by the spec (log 10). -/
def Obligations.NotComplementsEveryBit : Prop :=
  (∀ (dr sr : Reg) (xx : BitVec 6), decode (0b1001#4 ++ regBits dr ++ regBits sr ++ xx) = .not dr sr) ∧
  ∀ (dr sr : Reg) (s : State), ∃ t v, exec (.not dr sr) s = .next t ∧ DefinesOnly s t dr v ∧
    ∀ k < 16, v.getLsbD k = !(s.reg sr).getLsbD k

/-! ### Control transfer -/

/-- R90, with the flags of R25 and R64: bit 11 tests N, bit 10 tests Z, bit 9 tests P. The opcode number and field positions of the encoding clause are PRESUMED by the spec (log 10). -/
def Obligations.BrAddsOffsetExactlyWhenFlagRequested : Prop :=
  (∀ (n z p : Bool) (off : BitVec 9),
    decode (0b0000#4 ++ BitVec.ofBool n ++ BitVec.ofBool z ++ BitVec.ofBool p ++ off) = .br n z p off) ∧
  ∀ (n z p : Bool) (off : BitVec 9) (s : State), ∃ t, exec (.br n z p off) s = .next t ∧
    JumpsOnly s t
      (if (n = true ∧ s.cond = .n) ∨ (z = true ∧ s.cond = .z) ∨ (p = true ∧ s.cond = .p)
        then s.pc + off.signExtend 16 else s.pc)

/-- R91. The opcode number and field positions of the encoding clause are PRESUMED by the spec (log 10). -/
def Obligations.JmpGoesToTheBaseRegister : Prop :=
  (∀ (base : Reg) (xxx : BitVec 3) (yy : BitVec 6),
    decode (0b1100#4 ++ xxx ++ regBits base ++ yy) = .jmp base) ∧
  ∀ (base : Reg) (s : State), ∃ t, exec (.jmp base) s = .next t ∧ JumpsOnly s t (s.reg base)

/-- R92. The opcode number and field positions of the encoding clause are PRESUMED by the spec (log 10). -/
def Obligations.JsrLinksAndGoesToTheOffset : Prop :=
  (∀ off : BitVec 11, decode (0b0100#4 ++ 0b1#1 ++ off) = .jsr off) ∧
  ∀ (off : BitVec 11) (s : State), ∃ t, exec (.jsr off) s = .next t ∧
    t.reg 7 = s.pc ∧ t.pc = s.pc + off.signExtend 16 ∧
    RegsKept s t [7] ∧ t.cond = s.cond ∧ MemKept s t [] ∧ t.run = s.run ∧ ChannelsKept s t

/-- R93: under either value of the OPEN parameter JSRR_BASE_READ. The opcode number and field positions of the encoding clause are PRESUMED by the spec (log 10). -/
def Obligations.JsrrLinksAndGoesToTheBaseRegister : Prop :=
  (∀ (base : Reg) (xx : BitVec 2) (yy : BitVec 6),
    decode (0b0100#4 ++ 0b0#1 ++ xx ++ regBits base ++ yy) = .jsrr base) ∧
  ∀ (base : Reg) (s : State), ∃ t, exec (.jsrr base) s = .next t ∧
    t.reg 7 = s.pc ∧
    (Config.jsrrBaseRead = .beforeLink → t.pc = s.reg base) ∧
    (Config.jsrrBaseRead = .afterLink → t.pc = if base = 7 then s.pc else s.reg base) ∧
    RegsKept s t [7] ∧ t.cond = s.cond ∧ MemKept s t [] ∧ t.run = s.run ∧ ChannelsKept s t

/-! ### Loads -/

/-- R100: the word is what MemRead of the effective address answers; only a poll changes memory or the channel. The opcode number and field positions of the encoding clause are PRESUMED by the spec (log 10), and so is 0xFE02 as the other cell a poll may write (D4; log 11). -/
def Obligations.LdReadsThePcRelativeWord : Prop :=
  (∀ (dr : Reg) (off : BitVec 9), decode (0b0010#4 ++ regBits dr ++ off) = .ld dr off) ∧
  ∀ (dr : Reg) (off : BitVec 9) (s : State), ∃ t, exec (.ld dr off) s = .next t ∧
    (let ea := s.pc + off.signExtend 16
     let r := s.memRead ea
     t.reg dr = r.1 ∧ t.cond = condOf r.1 ∧ RegsKept s t [dr] ∧ MemKept r.2 t [] ∧ MemKept s t (pollCells [ea]) ∧
     t.inp = r.2.inp ∧ t.out = s.out ∧ t.pc = s.pc ∧ t.run = s.run)

/-- R101: the pointer read comes first, both go through the interception. The opcode number and field positions of the encoding clause are PRESUMED by the spec (log 10), and so is 0xFE02 as the other cell a poll may write (D4; log 11). -/
def Obligations.LdiReadsThePointerThenTheWord : Prop :=
  (∀ (dr : Reg) (off : BitVec 9), decode (0b1010#4 ++ regBits dr ++ off) = .ldi dr off) ∧
  ∀ (dr : Reg) (off : BitVec 9) (s : State), ∃ t, exec (.ldi dr off) s = .next t ∧
    (let pa := s.pc + off.signExtend 16
     let ptr := s.memRead pa
     let r := ptr.2.memRead ptr.1
     t.reg dr = r.1 ∧ t.cond = condOf r.1 ∧ RegsKept s t [dr] ∧ MemKept r.2 t [] ∧
     MemKept s t (pollCells [pa, ptr.1]) ∧ t.inp = r.2.inp ∧ t.out = s.out ∧ t.pc = s.pc ∧ t.run = s.run)

/-- R101, its corner case: "An LDI polls at most once": its input channel is as before or as one poll leaves it (the form of the channel is log 3). -/
def Obligations.LdiPollsAtMostOnce : Prop :=
  ∀ (dr : Reg) (off : BitVec 9) (s t : State), exec (.ldi dr off) s = .next t →
    (let pa := s.pc + off.signExtend 16
     (pa = 0xFE00 → (s.memRead pa).1 ≠ 0xFE00) ∧ (t.inp = s.inp ∨ t.inp = (InChannel.poll s.inp).2))

/-- R102: the base is read before DR is written, also when they are the same register. The opcode number and field positions of the encoding clause are PRESUMED by the spec (log 10), and so is 0xFE02 as the other cell a poll may write (D4; log 11). -/
def Obligations.LdrReadsTheBasePlusOffsetWord : Prop :=
  (∀ (dr base : Reg) (off : BitVec 6), decode (0b0110#4 ++ regBits dr ++ regBits base ++ off) = .ldr dr base off) ∧
  ∀ (dr base : Reg) (off : BitVec 6) (s : State), ∃ t, exec (.ldr dr base off) s = .next t ∧
    (let ea := s.reg base + off.signExtend 16
     let r := s.memRead ea
     t.reg dr = r.1 ∧ t.cond = condOf r.1 ∧ RegsKept s t [dr] ∧ MemKept r.2 t [] ∧ MemKept s t (pollCells [ea]) ∧
     t.inp = r.2.inp ∧ t.out = s.out ∧ t.pc = s.pc ∧ t.run = s.run)

/-- R103: no memory is read, so nothing is polled. The opcode number and field positions of the encoding clause are PRESUMED by the spec (log 10). -/
def Obligations.LeaDefinesThePcRelativeAddress : Prop :=
  (∀ (dr : Reg) (off : BitVec 9), decode (0b1110#4 ++ regBits dr ++ off) = .lea dr off) ∧
  ∀ (dr : Reg) (off : BitVec 9) (s : State), ∃ t, exec (.lea dr off) s = .next t ∧
    DefinesOnly s t dr (BitVec.ofInt 16 ((s.pc.toNat : Int) + off.toInt))

/-! ### Stores -/

/-- R110: one direct store (C1); the cell at 0xFE00 is stored to like any other. The opcode number and field positions of the encoding clause are PRESUMED by the spec (log 10). -/
def Obligations.StStoresAtThePcRelativeAddress : Prop :=
  (∀ (sr : Reg) (off : BitVec 9), decode (0b0011#4 ++ regBits sr ++ off) = .st sr off) ∧
  ∀ (sr : Reg) (off : BitVec 9) (s : State), ∃ t, exec (.st sr off) s = .next t ∧
    (let ea := s.pc + off.signExtend 16
     t.peek ea = s.reg sr ∧ MemKept s t [ea] ∧
     RegsKept s t [] ∧ t.cond = s.cond ∧ t.pc = s.pc ∧ t.run = s.run ∧ ChannelsKept s t)

/-- R111: the pointer read goes through the interception, then one store at the pointer. The opcode number and field positions of the encoding clause are PRESUMED by the spec (log 10), and so is 0xFE02 as the other cell a poll may write (D4; log 11). -/
def Obligations.StiStoresAtThePointer : Prop :=
  (∀ (sr : Reg) (off : BitVec 9), decode (0b1011#4 ++ regBits sr ++ off) = .sti sr off) ∧
  ∀ (sr : Reg) (off : BitVec 9) (s : State), ∃ t, exec (.sti sr off) s = .next t ∧
    (let pa := s.pc + off.signExtend 16
     let ptr := s.memRead pa
     t.peek ptr.1 = s.reg sr ∧ MemKept ptr.2 t [ptr.1] ∧ MemKept s t (ptr.1 :: pollCells [pa]) ∧
     RegsKept s t [] ∧ t.cond = s.cond ∧ t.pc = s.pc ∧ t.run = s.run ∧ t.inp = ptr.2.inp ∧ t.out = s.out)

/-- R112. The opcode number and field positions of the encoding clause are PRESUMED by the spec (log 10). -/
def Obligations.StrStoresAtTheBasePlusOffset : Prop :=
  (∀ (sr base : Reg) (off : BitVec 6), decode (0b0111#4 ++ regBits sr ++ regBits base ++ off) = .str sr base off) ∧
  ∀ (sr base : Reg) (off : BitVec 6) (s : State), ∃ t, exec (.str sr base off) s = .next t ∧
    (let ea := s.reg base + off.signExtend 16
     t.peek ea = s.reg sr ∧ MemKept s t [ea] ∧
     RegsKept s t [] ∧ t.cond = s.cond ∧ t.pc = s.pc ∧ t.run = s.run ∧ ChannelsKept s t)

/-! ### TRAP -/

/-- R123: GETC takes the next byte to come, and never completes when none will (R130; the stop is the model's name
for it, log 5; the form of the channel is log 3). The TRAP opcode number and trap code of the encoding clause are PRESUMED by the spec (log 10). -/
def Obligations.GetcTakesTheNextByteIntoR0 : Prop :=
  (∀ xxxx : BitVec 4, decode (0b1111#4 ++ xxxx ++ 0x20#8) = .getc) ∧
  (∀ (s : State) (c : Byte), s.inp.byteToCome 0 = some c →
    ∃ t, exec .getc s = .next t ∧ t.reg 0 = 0x00#8 ++ c ∧ InChannel.Took 1 s.inp t.inp ∧ t.out = s.out ∧
      Linked s t ∧ RegsKept s t [0, 7] ∧ t.cond = s.cond ∧ MemKept s t [] ∧ t.pc = s.pc ∧ t.run = s.run) ∧
  ∀ s : State, s.inp.byteToCome 0 = none →
    ∃ u, exec .getc s = .fault (.waitsForever u) ∧ u.out = s.out

/-- R124. The TRAP opcode number and trap code of the encoding clause are PRESUMED by the spec (log 10). -/
def Obligations.OutPutsTheLowByteOfR0 : Prop :=
  (∀ xxxx : BitVec 4, decode (0b1111#4 ++ xxxx ++ 0x21#8) = .out) ∧
  ∀ s : State, ∃ t, exec .out s = .next t ∧ t.out = s.out ++ [(s.reg 0).extractLsb' 0 8] ∧ t.inp = s.inp ∧
    Linked s t ∧ RegsKept s t [7] ∧ t.cond = s.cond ∧ MemKept s t [] ∧ t.pc = s.pc ∧ t.run = s.run

/-- R125, R130: one character per word up to the first zero word; with no zero word there is no completing step. The TRAP opcode number and trap code of the encoding clause are PRESUMED by the spec (log 10). Raw reads, wrap and low byte are DESIGN CHOICES of the spec (D7, D8; log 14), the named stop is the model's (log 6). -/
def Obligations.PutsPutsLowBytesUpToTheZeroWord : Prop :=
  (∀ xxxx : BitVec 4, decode (0b1111#4 ++ xxxx ++ 0x22#8) = .puts) ∧
  (∀ (s : State) (k : Nat), TerminatedAt s (s.reg 0) k →
    ∃ t, exec .puts s = .next t ∧
      t.out = s.out ++ (wordsAt s (s.reg 0) k).map (fun w => w.extractLsb' 0 8) ∧ t.inp = s.inp ∧
      Linked s t ∧ RegsKept s t [7] ∧ t.cond = s.cond ∧ MemKept s t [] ∧ t.pc = s.pc ∧ t.run = s.run) ∧
  ∀ s : State, (∀ a, s.peek a ≠ 0x0000) → ∃ u, exec .puts s = .fault (.endlessString u)

/-- R126: the prompt, then the byte that comes, echoed and in R0; the prompt is output even if no byte comes (the named stop is the model's, log 5; the form of the channel is log 3). The TRAP opcode number and trap code of the encoding clause are PRESUMED by the spec (log 10). IN_PROMPT is OPEN (log 8). -/
def Obligations.InPromptsEchoesAndTakesTheNextByte : Prop :=
  (∀ xxxx : BitVec 4, decode (0b1111#4 ++ xxxx ++ 0x23#8) = .in_) ∧
  (∀ (s : State) (c : Byte), s.inp.byteToCome 0 = some c →
    ∃ t, exec .in_ s = .next t ∧ t.reg 0 = 0x00#8 ++ c ∧ InChannel.Took 1 s.inp t.inp ∧
      t.out = s.out ++ Config.inPrompt ++ [c] ∧
      Linked s t ∧ RegsKept s t [0, 7] ∧ t.cond = s.cond ∧ MemKept s t [] ∧ t.pc = s.pc ∧ t.run = s.run) ∧
  ∀ s : State, s.inp.byteToCome 0 = none →
    ∃ u, exec .in_ s = .fault (.waitsForever u) ∧ u.out = s.out ++ Config.inPrompt

/-- R127, R130: low byte always, high byte if nonzero, up to the first zero word. The TRAP opcode number and trap code of the encoding clause are PRESUMED by the spec (log 10). Raw reads and wrap are DESIGN CHOICES of the spec (D7; log 14), the named stop is the model's (log 6). -/
def Obligations.PutspPutsPackedBytesUpToTheZeroWord : Prop :=
  (∀ xxxx : BitVec 4, decode (0b1111#4 ++ xxxx ++ 0x24#8) = .putsp) ∧
  (∀ (s : State) (k : Nat), TerminatedAt s (s.reg 0) k →
    ∃ t, exec .putsp s = .next t ∧
      t.out = s.out ++ (wordsAt s (s.reg 0) k).flatMap (fun w =>
        if w.extractLsb' 8 8 ≠ 0x00#8 then [w.extractLsb' 0 8, w.extractLsb' 8 8] else [w.extractLsb' 0 8]) ∧
      t.inp = s.inp ∧
      Linked s t ∧ RegsKept s t [7] ∧ t.cond = s.cond ∧ MemKept s t [] ∧ t.pc = s.pc ∧ t.run = s.run) ∧
  ∀ s : State, (∀ a, s.peek a ≠ 0x0000) → ∃ u, exec .putsp s = .fault (.endlessString u)

/-- R128. HALT_MESSAGE is OPEN (log 8). The TRAP opcode number of the encoding clause is PRESUMED by the spec (log 10). -/
def Obligations.HaltAnnouncesAndEndsTheRun : Prop :=
  (∀ xxxx : BitVec 4, decode (0b1111#4 ++ xxxx ++ 0x25#8) = .halt) ∧
  ∀ s : State, ∃ t, exec .halt s = .next t ∧ t.run = .halted ∧ t.out = s.out ++ Config.haltMessage ∧ t.inp = s.inp ∧
    Linked s t ∧ RegsKept s t [7] ∧ t.cond = s.cond ∧ MemKept s t [] ∧ t.pc = s.pc

/-- R129 at this spec's value UNKNOWN_TRAP = fault (DESIGN CHOICE of the spec, D11; log 9): a code outside the six
faults, after the optional R7 write. The TRAP opcode number of the encoding clause is PRESUMED by the spec (log 10). -/
def Obligations.UnknownTrapCodeFaults : Prop :=
  (∀ (xxxx : BitVec 4) (code : BitVec 8), code.toNat < 0x20 ∨ 0x25 < code.toNat →
    decode (0b1111#4 ++ xxxx ++ code) = .trap code) ∧
  ∀ (code : BitVec 8) (s : State), code.toNat < 0x20 ∨ 0x25 < code.toNat →
    ∃ t, exec (.trap code) s = .next t ∧ t.run = .faulted (.unknownTrap code) ∧
      Linked s t ∧ RegsKept s t [7] ∧ t.cond = s.cond ∧ MemKept s t [] ∧ t.pc = s.pc ∧ ChannelsKept s t

/-- R121: after any TRAP that goes on, R7 is the return address or is what it was (GETC and IN write R0 besides). -/
def Obligations.TrapLinksR7OnlyByTheParameter : Prop :=
  ∀ (i : Instr) (s t : State), isTrapRow i = true → exec i s = .next t →
    (Config.trapWritesR7 = true → t.reg 7 = s.pc) ∧ (Config.trapWritesR7 = false → t.reg 7 = s.reg 7) ∧
    RegsKept s t [0, 7]

/-! ### Invalid opcodes -/

/-- R140, R150. -/
def Obligations.RtiFaultsWithOpcode8 : Prop :=
  (∀ x : BitVec 12, decode (0b1000#4 ++ x) = .rti) ∧
  ∀ s : State, ∃ t, exec .rti s = .next t ∧ FaultsOnly s t (.invalidOpcode 8)

/-- R141, R150. The opcode number and field positions of the encoding clause are PRESUMED by the spec (log 10). -/
def Obligations.ReservedOpcodeFaultsWithOpcode13 : Prop :=
  (∀ x : BitVec 12, decode (0b1101#4 ++ x) = .res) ∧
  ∀ s : State, ∃ t, exec .res s = .next t ∧ FaultsOnly s t (.invalidOpcode 13)

/-! ### The primitives -/

/-- R13: the pseudocode of `sext_N`, what the model's `sext` of an N-bit field is, the identity at 16, idempotence (95_test_vectors.md
E9), and `zext_N`. -/
def Obligations.SextFollowsItsPseudocode : Prop :=
  (∀ (n : Nat) (v : Word), 1 ≤ n → n ≤ 16 →
    sextLow n v = (if v.getLsbD (n - 1) then (zextLow n v ||| (0xFFFF <<< n)) &&& 0xFFFF else zextLow n v)) ∧
  (∀ (n : Nat) (v : Word), sext (v.extractLsb' 0 n) = sextLow n v) ∧
  (∀ v : Word, sextLow 16 v = v) ∧
  (∀ (n : Nat) (v : Word), 1 ≤ n → n ≤ 16 → sextLow n (sextLow n v) = sextLow n v) ∧
  (∀ (n : Nat) (v : Word) (k : Nat), (zextLow n v).getLsbD k = (decide (k < n) && v.getLsbD k)) ∧
  ∀ (v : Word) (b : Byte), b = v.extractLsb' 0 8 → zext8 b = zextLow 8 v

/-- R26, with what it is applied to: the value just written to the destination register. -/
def Obligations.SetccClassifiesTheResult : Prop :=
  (∀ (s : State) (dr : Reg) (v : Word), (s.define dr v).reg dr = v ∧ (s.define dr v).cond = (s.setcc v).cond) ∧
  ∀ (s : State) (v : Word),
    ((s.setcc v).cond = .z ↔ v.toNat = 0) ∧ ((s.setcc v).cond = .n ↔ 32768 ≤ v.toNat) ∧
    ((s.setcc v).cond = .p ↔ 0 < v.toNat ∧ v.toNat < 32768)

/-- R41, R42, R43: only 0xFE00 is intercepted; a poll writes the whole status word, and the byte to 0xFE02. Ready
or not is whatever the channel's poll answers (log 3); the value 0x8000 and the address 0xFE02 are the spec's own decisions
(D5, D4; logs 12, 11). -/
def Obligations.MemReadPollsOnlyAtKbsr : Prop :=
  ∀ (s : State) (a : Word),
    (a ≠ 0xFE00 → s.memRead a = (s.peek a, s)) ∧
    (a = 0xFE00 → ∀ (b : Byte) (rest : InChannel), InChannel.poll s.inp = (some b, rest) →
      (s.memRead a).1 = 0x8000 ∧ (s.memRead a).2.peek 0xFE00 = 0x8000 ∧ (s.memRead a).2.peek 0xFE02 = 0x00#8 ++ b ∧
      (s.memRead a).2.inp = rest ∧ s.inp.byteToCome 0 = some b ∧ InChannel.Took 1 s.inp rest) ∧
    (a = 0xFE00 → ∀ rest : InChannel, InChannel.poll s.inp = (none, rest) →
      (s.memRead a).1 = 0x0000 ∧ (s.memRead a).2.peek 0xFE00 = 0x0000 ∧ (s.memRead a).2.peek 0xFE02 = s.peek 0xFE02 ∧
      (s.memRead a).2.inp = rest ∧ InChannel.Took 0 s.inp rest) ∧
    MemKept s (s.memRead a).2 [0xFE00, 0xFE02] ∧ RegsKept s (s.memRead a).2 [] ∧ (s.memRead a).2.pc = s.pc ∧
    (s.memRead a).2.cond = s.cond ∧ (s.memRead a).2.run = s.run ∧ (s.memRead a).2.out = s.out

/-- R44. -/
def Obligations.MemWriteStoresUnconditionally : Prop :=
  ∀ (s : State) (a v : Word),
    (s.memWrite a v).peek a = v ∧ MemKept s (s.memWrite a v) [a] ∧ RegsKept s (s.memWrite a v) [] ∧
    (s.memWrite a v).pc = s.pc ∧ (s.memWrite a v).cond = s.cond ∧ (s.memWrite a v).run = s.run ∧
    ChannelsKept s (s.memWrite a v)

/-- R31: `In.wait()` takes the first byte to come and no other, and never returns exactly when none will come (the
form of the channel is the model's, log 3): when the input has ended and no byte is queued, never when it is endless. -/
def Obligations.WaitTakesTheFirstByteToCome : Prop :=
  (∀ c : InChannel,
    (InChannel.wait c = none ↔ c.byteToCome 0 = none) ∧
    ∀ b, c.byteToCome 0 = some b → ∃ rest, InChannel.wait c = some (b, rest) ∧ InChannel.Took 1 c rest) ∧
  ∀ (events : List InEvent) (polls bytes : Nat),
    (InChannel.wait ⟨events, .ended⟩ = none ↔ ∀ b, .byte b ∉ events) ∧
    InChannel.wait ⟨events, .endless polls bytes⟩ ≠ none

/-- R58: "The answer of `In.ready()` in rule R41 is a free input of the step": whatever the coming polls are to answer
is some channel's answers, after which the channel goes on as any other, for ever if the input is endless; and it "may
be true only when a byte has arrived that has not yet been consumed": the byte taken is the next one to come. The form
of the channel is the model's (log 3). -/
def Obligations.EveryAnswerToAPollIsSomeChannels : Prop :=
  (∀ (answers : List (Option Byte)) (c : InChannel), ∃ d, InChannel.polls answers.length d = (answers, c)) ∧
  (∀ polls bytes : Nat, InChannel.poll ⟨[], .endless polls bytes⟩ =
    if Config.inputReady polls then (some (Config.inputByte bytes), ⟨[], .endless (polls + 1) (bytes + 1)⟩)
    else (none, ⟨[], .endless (polls + 1) bytes⟩)) ∧
  ∀ c rest : InChannel,
    (∀ b, InChannel.poll c = (some b, rest) → c.byteToCome 0 = some b ∧ InChannel.Took 1 c rest) ∧
    (InChannel.poll c = (none, rest) → InChannel.Took 0 c rest)

/-- Two canonical memories that read the same at every address are equal. The canonical form of memory is the model's own
DESIGN CHOICE (log 1): the spec says what memory holds, not how it is listed. -/
def Obligations.CanonicalMemoriesWithEqualReadsAreEqual : Prop :=
  ∀ m m' : Memory, Memory.wf m → Memory.wf m' → (∀ a : Word, Memory.read m a.toNat = Memory.read m' a.toNat) → m = m'

/-! ### Decoding -/

/-- A few words of the spec's own examples (95_test_vectors.md sections 1, 2). Most opcode numbers are PRESUMED by the spec (log 10). -/
def Obligations.WordsOfTheExamplesDecode : Prop :=
  decode 0b0001000001100011 = .addImm 0 1 3 ∧ decode 0b0001000001000010 = .addReg 0 1 2 ∧
  decode 0b1001000001111111 = .not 0 1 ∧ decode 0b0000001111111101 = .br false false true (-3) ∧
  decode 0b0100100000000010 = .jsr 2 ∧ decode 0b0110010001000000 = .ldr 2 1 0 ∧
  decode 0b1011100000000100 = .sti 4 4 ∧ decode 0b1111000000100101 = .halt ∧
  decode 0b1000000000000000 = .rti ∧ decode 0b1111000011111111 = .trap 0xFF

/-- Decode and encode agree on every well-formed instruction (R67, R70). The numbers are PRESUMED by the spec (log 10). -/
def Obligations.DecodeOfEncodeIsTheInstruction : Prop :=
  ∀ i : Instr, i.wellFormed = true → decode (encode i) = i

/-- R70: decoding is total and agrees with opcode_table.json: the decoded instruction is well-formed, and its row is
the first row of the table that the word's bits match (the generic TRAP row has lower priority). The numbers are PRESUMED by the spec (log 10). -/
def Obligations.EveryWordDecodesToItsFirstTableRow : Prop :=
  ∀ w : Word, (decode w).wellFormed = true ∧ opcodeTable.find? (fun r => r.hits w) = some (decode w).row

/-- R68: the bits no field names are ignored, and no other bit is: words of one row that agree outside the row's
ignored bits decode alike, and the encoder gives back every bit of the word that is not ignored. That they are ignored is a DESIGN CHOICE of the spec (D16; log 17). -/
def Obligations.DecodeIgnoresExactlyTheUnnamedBits : Prop :=
  (∀ w x : Word, decode (w ^^^ (x &&& (decode w).ignoredBits)) = decode w) ∧
  ∀ w : Word, encode (decode w) &&& ~~~ (decode w).ignoredBits = w &&& ~~~ (decode w).ignoredBits

/-! ### The step -/

/-- R175: a step of a RUNNING block at any pc but 0xFE00 runs the decoded word with pc incremented; at 0xFE00 the
fetch is the poll's read (R57). That fetch goes through MemRead is a DESIGN CHOICE of the spec (D6; log 13). -/
def Obligations.StepRunsTheDecodedInstruction : Prop :=
  ∀ s : State, s.run = .running →
    (s.pc ≠ 0xFE00 → step s = exec (decode (s.peek s.pc)) (s.setPc (s.pc + 1))) ∧
    step s = exec (decode (s.memRead s.pc).1) ((s.memRead s.pc).2.setPc (s.pc + 1))

/-- R175, R24: "No step is enabled in HALTED or FAULTED". -/
def Obligations.NoStepInHaltedOrFaulted : Prop :=
  ∀ s : State, s.run ≠ .running → ∀ t, step s ≠ .next t

/-- R150: a step that ends in FAULTED leaves pc one past the faulting instruction; registers, COND and Out are as before
it, but for the R7 write of an unknown TRAP when TRAP_WRITES_R7 is true; memory and the input channel are as the fetch
left them; no later fetch occurs, and it is no successful end. That a fetch at 0xFE00 has polled by then, so that memory
and input are compared after the fetch, rests on R57, a DESIGN CHOICE of the spec (D6; log 13). -/
def Obligations.FaultedStepLeavesAllElseAsItWas : Prop :=
  ∀ (s t : State) (reason : FaultReason), step s = .next t → t.run = .faulted reason →
    t.pc = s.pc + 1 ∧ t.cond = s.cond ∧ t.out = s.out ∧ MemKept s.fetch.2 t [] ∧ t.inp = s.fetch.2.inp ∧
    RegsKept s t (match reason with
      | .unknownTrap _ => if Config.trapWritesR7 then [7] else []
      | .invalidOpcode _ => []) ∧
    (∀ u, step t ≠ .next u) ∧ ¬ t.halted

/-- R57: a fetch at 0xFE00 polls: with a byte ready the step ends FAULTED(InvalidOpcode(8)), otherwise it is a no-op. That fetch goes through MemRead is a DESIGN CHOICE of the spec (D6; log 13); ready or not is what the channel's poll answers (log 3); the stored 0x8000 is a DESIGN CHOICE of the spec (D5; log 12) and the address 0xFE02 is PRESUMED by it (D4; log 11). -/
def Obligations.FetchAtKbsrPolls : Prop :=
  ∀ s : State, s.run = .running → s.pc = 0xFE00 →
    (∀ (b : Byte) (rest : InChannel), InChannel.poll s.inp = (some b, rest) →
      ∃ t, step s = .next t ∧ t.run = .faulted (.invalidOpcode 8) ∧ t.pc = 0xFE01 ∧ t.peek 0xFE00 = 0x8000 ∧
        t.peek 0xFE02 = 0x00#8 ++ b ∧ MemKept s t [0xFE00, 0xFE02] ∧ t.inp = rest ∧ RegsKept s t [] ∧
        t.cond = s.cond ∧ t.out = s.out) ∧
    (∀ rest : InChannel, InChannel.poll s.inp = (none, rest) →
      ∃ t, step s = .next t ∧ t.run = .running ∧ t.pc = 0xFE01 ∧ t.peek 0xFE00 = 0x0000 ∧
        MemKept s t [0xFE00] ∧ t.inp = rest ∧ RegsKept s t [] ∧ t.cond = s.cond ∧ t.out = s.out)

/-- R56: "A store by one instruction is therefore seen by the fetch of every later instruction": the instruction a
step stores at the next pc is the one the next step runs. -/
def Obligations.StoreIsSeenByTheNextFetch : Prop :=
  ∀ (s t : State) (i : Instr) (a : Word), step s = .next t → decode (s.memRead s.pc).1 = i →
    addressStored i s.fetch.2 = [a] → t.pc = a → a ≠ 0xFE00 →
    ∃ sr : Reg, ((∃ off, i = .st sr off ∨ i = .sti sr off) ∨ ∃ base off, i = .str sr base off) ∧
      step t = exec (decode (s.reg sr)) (t.setPc (t.pc + 1))

/-! ### Whole-machine rules -/

/-- R27: COND is written by exactly ADD, AND, NOT, LD, LDI, LDR and LEA, each with the value written to DR; nothing
else in a step writes it. -/
def Obligations.CondIsWrittenByExactlySevenInstructions : Prop :=
  (∀ (i : Instr) (s t : State), exec i s = .next t →
    t.cond = match definedReg i with
      | some dr => condOf (t.reg dr)
      | none => s.cond) ∧
  ∀ s t : State, step s = .next t → definedReg (decode s.fetch.1) = none → t.cond = s.cond

/-- R21: no other instruction writes a general register than the listed writers, and fetch writes none. -/
def Obligations.RegistersHaveOnlyTheListedWriters : Prop :=
  (∀ (i : Instr) (s t : State), i.wellFormed = true → exec i s = .next t → RegsKept s t (regsWritten i)) ∧
  ∀ s t : State, step s = .next t → RegsKept s t (regsWritten (decode s.fetch.1))

/-- R23: pc advances only by the fetch increment and by BR, JMP, JSR and JSRR. -/
def Obligations.PcHasOnlyTheListedWriters : Prop :=
  ∀ s t : State, step s = .next t → mayWritePc (decode s.fetch.1) = false → t.pc = s.pc + 1

/-- R44, R45, R49: memory changes only where ST, STI or STR stores, and at the keyboard words when a read polls: in the
execute phase a read of the instruction, in a whole step the fetch too (that it polls is a DESIGN CHOICE of the spec, D6, log 13; that the second word is 0xFE02 is PRESUMED by it,
D4, log 11). -/
def Obligations.MemoryChangesOnlyByStoresAndPolls : Prop :=
  (∀ (i : Instr) (s t : State), exec i s = .next t →
    MemKept s t (addressStored i s ++ pollCells (addressesRead i s))) ∧
  ∀ s t : State, step s = .next t →
    MemKept s t (addressStored (decode s.fetch.1) s.fetch.2 ++
      pollCells (s.pc :: addressesRead (decode s.fetch.1) s.fetch.2))

/-- R24, R151: RUNNING -> HALTED happens only by the HALT routine, RUNNING -> FAULTED only by the two invalid opcodes
and a TRAP with an unknown code (at this spec's UNKNOWN_TRAP, D11; log 9), and no step leaves HALTED or FAULTED. -/
def Obligations.RunStateChangesOnlyByHaltAndFaults : Prop :=
  ∀ s t : State, step s = .next t → s.run = .running ∧
    (t.run = .halted ↔ decode s.fetch.1 = .halt) ∧
    ∀ reason, t.run = .faulted reason ↔
      (decode s.fetch.1 = .rti ∧ reason = .invalidOpcode 8) ∨ (decode s.fetch.1 = .res ∧ reason = .invalidOpcode 13) ∨
      ∃ code, decode s.fetch.1 = .trap code ∧ reason = .unknownTrap code

/-- R32, R44, R162: a step only appends to the output, and only a TRAP puts anything. -/
def Obligations.OutputIsAppendedOnlyByTraps : Prop :=
  ∀ s t : State, step s = .next t →
    (∃ bs, t.out = s.out ++ bs) ∧ (isTrapRow (decode s.fetch.1) = false → t.out = s.out)

/-- R31, R155: a step takes input only from the front of the channel, at most one byte of it, and only a MemRead of
0xFE00, GETC or IN touches it (the form of the channel is log 3). -/
def Obligations.InputIsTakenOnlyInOrderByPollsGetcAndIn : Prop :=
  ∀ s t : State, step s = .next t →
    (∃ j ≤ 1, InChannel.Took j s.inp t.inp) ∧
    (s.pc ≠ 0xFE00 → 0xFE00 ∉ addressesRead (decode s.fetch.1) s.fetch.2 → decode s.fetch.1 ≠ .getc →
      decode s.fetch.1 ≠ .in_ → t.inp = s.inp)

/-- R35: the input channel is observed only through KBSR reads, GETC and IN: a step without them does the same
whatever the channel holds. -/
def Obligations.InputIsUnobservedWithoutPollGetcOrIn : Prop :=
  ∀ (s t : State) (inp : InChannel), s.pc ≠ 0xFE00 → 0xFE00 ∉ addressesRead (decode s.fetch.1) s.fetch.2 →
    decode s.fetch.1 ≠ .getc → decode s.fetch.1 ≠ .in_ → step s = .next t →
    step (s.setInp inp) = .next (t.setInp inp)

/-- R130, R151, R152, R176: a RUNNING block has a next state, except exactly where the spec says an instruction never
completes: GETC or IN when no byte will come, PUTS or PUTSP when no word of memory is zero. The named stops are the model's (logs 5, 6), and so is the form of the channel (log 3). -/
def Obligations.RunningStepsCompleteExceptTheTwoHangs : Prop :=
  ∀ s : State, s.run = .running →
    ((∃ t, step s = .next t) ↔
      ¬ (((decode s.fetch.1 = .getc ∨ decode s.fetch.1 = .in_) ∧ s.fetch.2.inp.byteToCome 0 = none) ∨
        ((decode s.fetch.1 = .puts ∨ decode s.fetch.1 = .putsp) ∧ ∀ a, s.fetch.2.peek a ≠ 0x0000)))

/-- R24, R165, R176: HALTED and FAULTED are terminal along every run. -/
def Obligations.EndedRunsStayAsTheyAre : Prop :=
  ∀ s t : State, s.run ≠ .running → Reaches s t → t = s

/-- Every step keeps the canonical form of memory, the model's own DESIGN CHOICE (log 1). -/
def Obligations.StepKeepsMemoryCanonical : Prop :=
  ∀ s t : State, s.Inv → step s = .next t → t.Inv

/-! ### Reset and boot -/

/-- R36, R170: the reset values the spec states (what `inp` holds there is the model's choice, log 4, and not stated;
Z and 0x3000 are the spec's own decisions, D12, D13; logs 15, 16). -/
def Obligations.ResetValuesAreTheSpecs : Prop :=
  (∀ r : Reg, State.reset.reg r = 0x0000) ∧ State.reset.pc = 0x3000 ∧ State.reset.cond = .z ∧
  (∀ a : Word, State.reset.peek a = 0x0000) ∧ State.reset.run = .running ∧ State.reset.out = []

/-- Reset meets the invariant, and so does every state the boot order (R171) leaves. The canonical form of memory is the
model's own DESIGN CHOICE (log 1): the spec's rules say what memory holds, not how it is listed. -/
def Obligations.ResetAndBootMemoryIsCanonical : Prop :=
  State.reset.Inv ∧ ∀ (startPc : Word) (images : List Image) (inp : InChannel), (State.boot startPc images inp).Inv

/-- R172: the big-endian origin, then the words copied upward, dropped past 0xFFFF; a trailing odd byte is ignored;
fewer than two bytes is a load failure (D18; log 18). -/
def Obligations.LoaderCopiesBigEndianWordsFromTheOrigin : Prop :=
  (∀ (b : List Byte) (m : Memory), b.length < 2 → loadImage (some b) m = none) ∧
  ∀ (b : List Byte) (m : Memory) (hi lo : Byte), b[0]? = some hi → b[1]? = some lo →
    ∃ m', loadImage (some b) m = some m' ∧
      (let origin := 256 * hi.toNat + lo.toNat
       let count := min ((b.length - 2) / 2) (65536 - origin)
       (∀ k < count, ∀ h l : Byte, b[2 + 2 * k]? = some h → b[3 + 2 * k]? = some l →
         (Memory.read m' (origin + k)).toNat = 256 * h.toNat + l.toNat) ∧
       ∀ a < 65536, a < origin ∨ origin + count ≤ a → Memory.read m' a = Memory.read m a)

/-- R173: a load failure writes no memory and loading goes on; images are loaded in the host's order. -/
def Obligations.LoadFailuresAreReportedAndSkipped : Prop :=
  (∀ m, loadImages [] m = (m, [])) ∧
  (∀ m, loadImage none m = none) ∧
  ∀ (image : Image) (rest : List Image) (m : Memory),
    (∀ m', loadImage image m = some m' →
      loadImages (image :: rest) m = ((loadImages rest m').1, true :: (loadImages rest m').2)) ∧
    (loadImage image m = none →
      loadImages (image :: rest) m = ((loadImages rest m).1, false :: (loadImages rest m).2))

/-- R171: after the boot order registers, COND and the run state are those of reset, pc is START_PC, memory is what
the images left, and the first step fetches at pc. That images never set pc is a decision of the spec (D13; log 16). -/
def Obligations.BootRunsFromStartPcWithTheImagesLoaded : Prop :=
  ∀ (startPc : Word) (images : List Image) (inp : InChannel),
    (let s := State.boot startPc images inp
     s.x = State.reset.x ∧ s.cond = State.reset.cond ∧ s.run = .running ∧ s.out = [] ∧ s.pc = startPc ∧ s.inp = inp ∧
     s.mem = (loadImages images []).1 ∧
     (startPc ≠ 0xFE00 →
       step s = exec (decode (Memory.read (loadImages images []).1 startPc.toNat)) (s.setPc (startPc + 1))))

/-- R174: "loading an image with origin O and words [w0, w1, ..., wk] then reading Memory at O, O+1, ... O+k returns
exactly [w0, ..., wk]", by MemRead away from 0xFE00. -/
def Obligations.LoadedWordsReadBack : Prop :=
  ∀ (origin : Word) (ws : List Word) (s : State) (m' : Memory) (k : Nat) (w : Word),
    origin.toNat + ws.length ≤ 65536 →
    loadImage (some ((origin :: ws).flatMap fun v => [v.extractLsb' 8 8, v.extractLsb' 0 8])) s.mem = some m' →
    ws[k]? = some w → origin + BitVec.ofNat 16 k ≠ 0xFE00 →
    (State.memRead { s with mem := m' } (origin + BitVec.ofNat 16 k)).1 = w
end

