-- ==== Sys2Proof/Laws/Encoding.lean ====
section
/-! SUPPORT. The field laws of the formats (30_encoding.md R62, R67): each field of a word that a format lays out,
read back at its bit position, whatever the other fields (the ignored ones too) hold. -/

namespace Sys2Proof

theorem toFin_regBits (r : Reg) : (regBits r).toFin = r := by
  revert r; decide

theorem regBits_toFin (b : BitVec 3) : regBits b.toFin = b := by
  revert b; decide

/-! ### Format OPR: `oooo ddd sss m xx ttt` -/

section
variable (op : BitVec 4) (d : BitVec 3) (s : BitVec 3) (m : BitVec 1) (xx : BitVec 2) (t : BitVec 3)

theorem opr_field_op : (op ++ d ++ s ++ m ++ xx ++ t).extractLsb' 12 4 = op := by
  ext j hj
  simp only [BitVec.getElem_extractLsb', BitVec.getLsbD_append]
  interval_cases j <;> rfl

theorem opr_field_d : (op ++ d ++ s ++ m ++ xx ++ t).extractLsb' 9 3 = d := by
  ext j hj
  simp only [BitVec.getElem_extractLsb', BitVec.getLsbD_append]
  interval_cases j <;> rfl

theorem opr_field_s : (op ++ d ++ s ++ m ++ xx ++ t).extractLsb' 6 3 = s := by
  ext j hj
  simp only [BitVec.getElem_extractLsb', BitVec.getLsbD_append]
  interval_cases j <;> rfl

theorem opr_field_m : (op ++ d ++ s ++ m ++ xx ++ t).extractLsb' 5 1 = m := by
  ext j hj
  simp only [BitVec.getElem_extractLsb', BitVec.getLsbD_append]
  interval_cases j; rfl

theorem opr_field_t : (op ++ d ++ s ++ m ++ xx ++ t).extractLsb' 0 3 = t := by
  ext j hj
  simp only [BitVec.getElem_extractLsb', BitVec.getLsbD_append]
  interval_cases j <;> rfl

end

/-! ### Format OPI: `oooo ddd sss m iiiii` -/

section
variable (op : BitVec 4) (d : BitVec 3) (s : BitVec 3) (m : BitVec 1) (i : BitVec 5)

theorem opi_field_op : (op ++ d ++ s ++ m ++ i).extractLsb' 12 4 = op := by
  ext j hj
  simp only [BitVec.getElem_extractLsb', BitVec.getLsbD_append]
  interval_cases j <;> rfl

theorem opi_field_d : (op ++ d ++ s ++ m ++ i).extractLsb' 9 3 = d := by
  ext j hj
  simp only [BitVec.getElem_extractLsb', BitVec.getLsbD_append]
  interval_cases j <;> rfl

theorem opi_field_s : (op ++ d ++ s ++ m ++ i).extractLsb' 6 3 = s := by
  ext j hj
  simp only [BitVec.getElem_extractLsb', BitVec.getLsbD_append]
  interval_cases j <;> rfl

theorem opi_field_m : (op ++ d ++ s ++ m ++ i).extractLsb' 5 1 = m := by
  ext j hj
  simp only [BitVec.getElem_extractLsb', BitVec.getLsbD_append]
  interval_cases j; rfl

theorem opi_field_i : (op ++ d ++ s ++ m ++ i).extractLsb' 0 5 = i := by
  ext j hj
  simp only [BitVec.getElem_extractLsb', BitVec.getLsbD_append]
  interval_cases j <;> rfl

end

/-! ### Format BASE6, UN, JR of JMP: `oooo ddd sss iiiiii` -/

section
variable (op : BitVec 4) (d : BitVec 3) (s : BitVec 3) (i : BitVec 6)

theorem base6_field_op : (op ++ d ++ s ++ i).extractLsb' 12 4 = op := by
  ext j hj
  simp only [BitVec.getElem_extractLsb', BitVec.getLsbD_append]
  interval_cases j <;> rfl

theorem base6_field_d : (op ++ d ++ s ++ i).extractLsb' 9 3 = d := by
  ext j hj
  simp only [BitVec.getElem_extractLsb', BitVec.getLsbD_append]
  interval_cases j <;> rfl

theorem base6_field_s : (op ++ d ++ s ++ i).extractLsb' 6 3 = s := by
  ext j hj
  simp only [BitVec.getElem_extractLsb', BitVec.getLsbD_append]
  interval_cases j <;> rfl

theorem base6_field_i : (op ++ d ++ s ++ i).extractLsb' 0 6 = i := by
  ext j hj
  simp only [BitVec.getElem_extractLsb', BitVec.getLsbD_append]
  interval_cases j <;> rfl

end

/-! ### Format PC9: `oooo ddd iiiiiiiii` -/

section
variable (op : BitVec 4) (d : BitVec 3) (i : BitVec 9)

theorem pc9_field_op : (op ++ d ++ i).extractLsb' 12 4 = op := by
  ext j hj
  simp only [BitVec.getElem_extractLsb', BitVec.getLsbD_append]
  interval_cases j <;> rfl

theorem pc9_field_d : (op ++ d ++ i).extractLsb' 9 3 = d := by
  ext j hj
  simp only [BitVec.getElem_extractLsb', BitVec.getLsbD_append]
  interval_cases j <;> rfl

theorem pc9_field_i : (op ++ d ++ i).extractLsb' 0 9 = i := by
  ext j hj
  simp only [BitVec.getElem_extractLsb', BitVec.getLsbD_append]
  interval_cases j <;> rfl

end

/-! ### Format BR: `oooo n z p iiiiiiiii` -/

section
variable (op : BitVec 4) (n : BitVec 1) (z : BitVec 1) (p : BitVec 1) (i : BitVec 9)

theorem br_field_op : (op ++ n ++ z ++ p ++ i).extractLsb' 12 4 = op := by
  ext j hj
  simp only [BitVec.getElem_extractLsb', BitVec.getLsbD_append]
  interval_cases j <;> rfl

theorem br_field_n : (op ++ n ++ z ++ p ++ i).extractLsb' 11 1 = n := by
  ext j hj
  simp only [BitVec.getElem_extractLsb', BitVec.getLsbD_append]
  interval_cases j; rfl

theorem br_field_z : (op ++ n ++ z ++ p ++ i).extractLsb' 10 1 = z := by
  ext j hj
  simp only [BitVec.getElem_extractLsb', BitVec.getLsbD_append]
  interval_cases j; rfl

theorem br_field_p : (op ++ n ++ z ++ p ++ i).extractLsb' 9 1 = p := by
  ext j hj
  simp only [BitVec.getElem_extractLsb', BitVec.getLsbD_append]
  interval_cases j; rfl

theorem br_field_i : (op ++ n ++ z ++ p ++ i).extractLsb' 0 9 = i := by
  ext j hj
  simp only [BitVec.getElem_extractLsb', BitVec.getLsbD_append]
  interval_cases j <;> rfl

end

/-! ### Format J11: `oooo l iiiiiiiiiii` -/

section
variable (op : BitVec 4) (l : BitVec 1) (i : BitVec 11)

theorem j11_field_op : (op ++ l ++ i).extractLsb' 12 4 = op := by
  ext j hj
  simp only [BitVec.getElem_extractLsb', BitVec.getLsbD_append]
  interval_cases j <;> rfl

theorem j11_field_l : (op ++ l ++ i).extractLsb' 11 1 = l := by
  ext j hj
  simp only [BitVec.getElem_extractLsb', BitVec.getLsbD_append]
  interval_cases j; rfl

theorem j11_field_i : (op ++ l ++ i).extractLsb' 0 11 = i := by
  ext j hj
  simp only [BitVec.getElem_extractLsb', BitVec.getLsbD_append]
  interval_cases j <;> rfl

end

/-! ### Format JR of JSRR: `oooo l xx sss xxxxxx` -/

section
variable (op : BitVec 4) (l : BitVec 1) (xx : BitVec 2) (s : BitVec 3) (yy : BitVec 6)

theorem jsrr_field_op : (op ++ l ++ xx ++ s ++ yy).extractLsb' 12 4 = op := by
  ext j hj
  simp only [BitVec.getElem_extractLsb', BitVec.getLsbD_append]
  interval_cases j <;> rfl

theorem jsrr_field_l : (op ++ l ++ xx ++ s ++ yy).extractLsb' 11 1 = l := by
  ext j hj
  simp only [BitVec.getElem_extractLsb', BitVec.getLsbD_append]
  interval_cases j; rfl

theorem jsrr_field_s : (op ++ l ++ xx ++ s ++ yy).extractLsb' 6 3 = s := by
  ext j hj
  simp only [BitVec.getElem_extractLsb', BitVec.getLsbD_append]
  interval_cases j <;> rfl

end

/-! ### Format TRAP: `oooo xxxx vvvvvvvv` -/

section
variable (op : BitVec 4) (xx : BitVec 4) (v : BitVec 8)

theorem trap_field_op : (op ++ xx ++ v).extractLsb' 12 4 = op := by
  ext j hj
  simp only [BitVec.getElem_extractLsb', BitVec.getLsbD_append]
  interval_cases j <;> rfl

theorem trap_field_v : (op ++ xx ++ v).extractLsb' 0 8 = v := by
  ext j hj
  simp only [BitVec.getElem_extractLsb', BitVec.getLsbD_append]
  interval_cases j <;> rfl

end

/-! ### Format NONE: `oooo xxxxxxxxxxxx` -/

section
variable (op : BitVec 4) (xx : BitVec 12)

theorem none_field_op : (op ++ xx).extractLsb' 12 4 = op := by
  ext j hj
  simp only [BitVec.getElem_extractLsb', BitVec.getLsbD_append]
  interval_cases j <;> rfl

end

end Sys2Proof
end

