-- ==== Sys2Proof/Laws/Memory.lean ====
section
/-! SUPPORT. The laws of memory as data: read after write, the canonical form kept by every operation, and equal
reads of canonical memories mean equal data. -/

namespace Sys2Proof.Machine.Memory

theorem read_nil (a : Nat) : Memory.read [] a = Memory.unlisted := rfl

theorem read_cons (k : Nat) (v : Word) (m : Memory) (a : Nat) :
    Memory.read ((k, v) :: m) a = if k = a then v else Memory.read m a := rfl

theorem read_insert (a : Nat) (v : Word) (m : Memory) (b : Nat) :
    Memory.read (Memory.insert a v m) b = if a = b then v else Memory.read m b := by
  induction m with
  | nil => rfl
  | cons c m ih =>
    obtain ⟨k, w⟩ := c
    unfold Memory.insert
    split_ifs with h1 h2 <;> simp only [read_cons, ih] <;> split_ifs <;> first | rfl | omega

theorem read_filter_ne (a : Nat) (m : Memory) (b : Nat) :
    Memory.read (m.filter (fun c => c.1 ≠ a)) b = if a = b then Memory.unlisted else Memory.read m b := by
  induction m with
  | nil => simp [read_nil]
  | cons c m ih =>
    obtain ⟨k, w⟩ := c
    by_cases hk : k = a
    · subst hk
      rw [List.filter_cons_of_neg (by simp), ih, read_cons]
      split_ifs <;> rfl
    · rw [List.filter_cons_of_pos (by simpa using hk), read_cons, read_cons, ih]
      split_ifs <;> first | rfl | omega

/-- Read after write: the written address reads the value, every other address what it read before. -/
@[simp] theorem read_write (m : Memory) (a : Nat) (v : Word) (b : Nat) :
    Memory.read (Memory.write m a v) b = if a = b then v else Memory.read m b := by
  unfold Memory.write
  split_ifs with hv h h
  · rw [read_filter_ne, if_pos h, hv]
  · rw [read_filter_ne, if_neg h]
  · rw [read_insert, if_pos h]
  · rw [read_insert, if_neg h]

theorem mem_insert {a : Nat} {v : Word} {m : Memory} {c : Cell} (h : c ∈ Memory.insert a v m) :
    c = (a, v) ∨ c ∈ m := by
  induction m with
  | nil => simpa [Memory.insert] using h
  | cons d m ih =>
    obtain ⟨k, w⟩ := d
    unfold Memory.insert at h
    split_ifs at h
    · simpa using h
    · simp only [List.mem_cons] at h ⊢
      tauto
    · simp only [List.mem_cons] at h ⊢
      rcases h with h | h
      · exact .inr (.inl h)
      · rcases ih h with h | h <;> tauto

theorem wf_nil : Memory.wf [] := by simp [Memory.wf]

theorem wf_cons {k : Nat} {w : Word} {m : Memory} :
    Memory.wf ((k, w) :: m) ↔
      (∀ c ∈ m, k < c.1) ∧ k < 65536 ∧ w ≠ Memory.unlisted ∧ Memory.wf m := by
  simp only [Memory.wf, List.pairwise_cons, List.mem_cons, forall_eq_or_imp]
  tauto

theorem wf_insert {a : Nat} {v : Word} {m : Memory} (ha : a < 65536) (hv : v ≠ Memory.unlisted)
    (hm : Memory.wf m) : Memory.wf (Memory.insert a v m) := by
  induction m with
  | nil => simpa [Memory.insert, Memory.wf] using ⟨ha, hv⟩
  | cons c m ih =>
    obtain ⟨k, w⟩ := c
    obtain ⟨hk, hk', hw, hm'⟩ := wf_cons.1 hm
    unfold Memory.insert
    split_ifs with h1 h2
    · refine wf_cons.2 ⟨?_, ha, hv, hm⟩
      intro c hc
      rcases List.mem_cons.1 hc with rfl | hc
      · exact h1
      · exact h1.trans (hk c hc)
    · subst h2
      exact wf_cons.2 ⟨hk, ha, hv, hm'⟩
    · refine wf_cons.2 ⟨?_, hk', hw, ih hm'⟩
      intro c hc
      rcases mem_insert hc with rfl | hc
      · change k < a
        omega
      · exact hk c hc

/-- A write keeps the canonical form. -/
theorem wf_write {m : Memory} {a : Nat} (v : Word) (ha : a < 65536) (hm : Memory.wf m) :
    Memory.wf (Memory.write m a v) := by
  unfold Memory.write
  split_ifs with hv
  · exact ⟨hm.1.sublist List.filter_sublist, fun c hc => hm.2 c (List.mem_of_mem_filter hc)⟩
  · exact wf_insert ha hv hm

/-- An address below every listed one reads as unlisted. -/
theorem read_of_lt {m : Memory} {a : Nat} (h : ∀ c ∈ m, a < c.1) : Memory.read m a = Memory.unlisted := by
  induction m with
  | nil => rfl
  | cons c m ih =>
    obtain ⟨k, w⟩ := c
    have hk : a < k := h (k, w) (by simp)
    rw [read_cons, if_neg (by omega)]
    exact ih fun c hc => h c (by simp [hc])

end Sys2Proof.Machine.Memory
end

