-- ==== Sys2Proof/Laws/State.lean ====
section
/-! SUPPORT. One lemma per field per update of State, so that no later proof unfolds a record update. -/

namespace Sys2Proof.Machine.State

variable (s : State)

/-! ### reg, peek -/

@[simp] theorem reg_setReg (r : Reg) (v : Word) (q : Reg) :
    (s.setReg r v).reg q = if q = r then v else s.reg q := by
  unfold State.reg State.setReg
  simp only [Fin.getElem_fin, Vector.getElem_set]
  by_cases h : q = r
  · simp [h]
  · rw [if_neg h, if_neg (fun e => h (Fin.ext e.symm))]

/-! ### setReg -/

@[simp] theorem setReg_pc (r : Reg) (v : Word) : (s.setReg r v).pc = s.pc := rfl
@[simp] theorem setReg_cond (r : Reg) (v : Word) : (s.setReg r v).cond = s.cond := rfl
@[simp] theorem setReg_mem (r : Reg) (v : Word) : (s.setReg r v).mem = s.mem := rfl
@[simp] theorem setReg_run (r : Reg) (v : Word) : (s.setReg r v).run = s.run := rfl
@[simp] theorem setReg_inp (r : Reg) (v : Word) : (s.setReg r v).inp = s.inp := rfl
@[simp] theorem setReg_out (r : Reg) (v : Word) : (s.setReg r v).out = s.out := rfl
@[simp] theorem peek_setReg (r : Reg) (v : Word) (a' : Word) : (s.setReg r v).peek a' = s.peek a' := rfl

/-! ### setPc -/

@[simp] theorem setPc_x (a : Word) : (s.setPc a).x = s.x := rfl
@[simp] theorem setPc_pc (a : Word) : (s.setPc a).pc = a := rfl
@[simp] theorem setPc_cond (a : Word) : (s.setPc a).cond = s.cond := rfl
@[simp] theorem setPc_mem (a : Word) : (s.setPc a).mem = s.mem := rfl
@[simp] theorem setPc_run (a : Word) : (s.setPc a).run = s.run := rfl
@[simp] theorem setPc_inp (a : Word) : (s.setPc a).inp = s.inp := rfl
@[simp] theorem setPc_out (a : Word) : (s.setPc a).out = s.out := rfl
@[simp] theorem reg_setPc (a : Word) (q : Reg) : (s.setPc a).reg q = s.reg q := rfl
@[simp] theorem peek_setPc (a : Word) (a' : Word) : (s.setPc a).peek a' = s.peek a' := rfl

/-! ### setcc -/

@[simp] theorem setcc_x (v : Word) : (s.setcc v).x = s.x := rfl
@[simp] theorem setcc_pc (v : Word) : (s.setcc v).pc = s.pc := rfl
@[simp] theorem setcc_cond (v : Word) : (s.setcc v).cond = condOf v := rfl
@[simp] theorem setcc_mem (v : Word) : (s.setcc v).mem = s.mem := rfl
@[simp] theorem setcc_run (v : Word) : (s.setcc v).run = s.run := rfl
@[simp] theorem setcc_inp (v : Word) : (s.setcc v).inp = s.inp := rfl
@[simp] theorem setcc_out (v : Word) : (s.setcc v).out = s.out := rfl
@[simp] theorem reg_setcc (v : Word) (q : Reg) : (s.setcc v).reg q = s.reg q := rfl
@[simp] theorem peek_setcc (v : Word) (a' : Word) : (s.setcc v).peek a' = s.peek a' := rfl

/-! ### poke -/

@[simp] theorem poke_x (a v : Word) : (s.poke a v).x = s.x := rfl
@[simp] theorem poke_pc (a v : Word) : (s.poke a v).pc = s.pc := rfl
@[simp] theorem poke_cond (a v : Word) : (s.poke a v).cond = s.cond := rfl
@[simp] theorem poke_mem (a v : Word) : (s.poke a v).mem = Memory.write s.mem a.toNat v := rfl
@[simp] theorem poke_run (a v : Word) : (s.poke a v).run = s.run := rfl
@[simp] theorem poke_inp (a v : Word) : (s.poke a v).inp = s.inp := rfl
@[simp] theorem poke_out (a v : Word) : (s.poke a v).out = s.out := rfl
@[simp] theorem reg_poke (a v : Word) (q : Reg) : (s.poke a v).reg q = s.reg q := rfl

/-! ### memWrite -/

@[simp] theorem memWrite_x (a v : Word) : (s.memWrite a v).x = s.x := rfl
@[simp] theorem memWrite_pc (a v : Word) : (s.memWrite a v).pc = s.pc := rfl
@[simp] theorem memWrite_cond (a v : Word) : (s.memWrite a v).cond = s.cond := rfl
@[simp] theorem memWrite_mem (a v : Word) : (s.memWrite a v).mem = Memory.write s.mem a.toNat v := rfl
@[simp] theorem memWrite_run (a v : Word) : (s.memWrite a v).run = s.run := rfl
@[simp] theorem memWrite_inp (a v : Word) : (s.memWrite a v).inp = s.inp := rfl
@[simp] theorem memWrite_out (a v : Word) : (s.memWrite a v).out = s.out := rfl
@[simp] theorem reg_memWrite (a v : Word) (q : Reg) : (s.memWrite a v).reg q = s.reg q := rfl

/-! ### put -/

@[simp] theorem put_x (bs : List Byte) : (s.put bs).x = s.x := rfl
@[simp] theorem put_pc (bs : List Byte) : (s.put bs).pc = s.pc := rfl
@[simp] theorem put_cond (bs : List Byte) : (s.put bs).cond = s.cond := rfl
@[simp] theorem put_mem (bs : List Byte) : (s.put bs).mem = s.mem := rfl
@[simp] theorem put_run (bs : List Byte) : (s.put bs).run = s.run := rfl
@[simp] theorem put_inp (bs : List Byte) : (s.put bs).inp = s.inp := rfl
@[simp] theorem put_out (bs : List Byte) : (s.put bs).out = s.out ++ bs := rfl
@[simp] theorem reg_put (bs : List Byte) (q : Reg) : (s.put bs).reg q = s.reg q := rfl
@[simp] theorem peek_put (bs : List Byte) (a' : Word) : (s.put bs).peek a' = s.peek a' := rfl

/-! ### halt -/

@[simp] theorem halt_x : (s.halt).x = s.x := rfl
@[simp] theorem halt_pc : (s.halt).pc = s.pc := rfl
@[simp] theorem halt_cond : (s.halt).cond = s.cond := rfl
@[simp] theorem halt_mem : (s.halt).mem = s.mem := rfl
@[simp] theorem halt_run : (s.halt).run = .halted := rfl
@[simp] theorem halt_inp : (s.halt).inp = s.inp := rfl
@[simp] theorem halt_out : (s.halt).out = s.out := rfl
@[simp] theorem reg_halt (q : Reg) : (s.halt).reg q = s.reg q := rfl
@[simp] theorem peek_halt (a' : Word) : (s.halt).peek a' = s.peek a' := rfl

/-! ### raise -/

@[simp] theorem raise_x (reason : FaultReason) : (s.raise reason).x = s.x := rfl
@[simp] theorem raise_pc (reason : FaultReason) : (s.raise reason).pc = s.pc := rfl
@[simp] theorem raise_cond (reason : FaultReason) : (s.raise reason).cond = s.cond := rfl
@[simp] theorem raise_mem (reason : FaultReason) : (s.raise reason).mem = s.mem := rfl
@[simp] theorem raise_run (reason : FaultReason) : (s.raise reason).run = .faulted reason := rfl
@[simp] theorem raise_inp (reason : FaultReason) : (s.raise reason).inp = s.inp := rfl
@[simp] theorem raise_out (reason : FaultReason) : (s.raise reason).out = s.out := rfl
@[simp] theorem reg_raise (reason : FaultReason) (q : Reg) : (s.raise reason).reg q = s.reg q := rfl
@[simp] theorem peek_raise (reason : FaultReason) (a' : Word) : (s.raise reason).peek a' = s.peek a' := rfl

/-! ### setInp -/

@[simp] theorem setInp_x (c : InChannel) : (s.setInp c).x = s.x := rfl
@[simp] theorem setInp_pc (c : InChannel) : (s.setInp c).pc = s.pc := rfl
@[simp] theorem setInp_cond (c : InChannel) : (s.setInp c).cond = s.cond := rfl
@[simp] theorem setInp_mem (c : InChannel) : (s.setInp c).mem = s.mem := rfl
@[simp] theorem setInp_run (c : InChannel) : (s.setInp c).run = s.run := rfl
@[simp] theorem setInp_inp (c : InChannel) : (s.setInp c).inp = c := rfl
@[simp] theorem setInp_out (c : InChannel) : (s.setInp c).out = s.out := rfl
@[simp] theorem reg_setInp (c : InChannel) (q : Reg) : (s.setInp c).reg q = s.reg q := rfl
@[simp] theorem peek_setInp (c : InChannel) (a' : Word) : (s.setInp c).peek a' = s.peek a' := rfl

/-! ### define -/

@[simp] theorem reg_define (r : Reg) (v : Word) (q : Reg) :
    (s.define r v).reg q = if q = r then v else s.reg q := by simp [State.define]
@[simp] theorem define_pc (r : Reg) (v : Word) : (s.define r v).pc = s.pc := rfl
@[simp] theorem define_cond (r : Reg) (v : Word) : (s.define r v).cond = condOf v := rfl
@[simp] theorem define_mem (r : Reg) (v : Word) : (s.define r v).mem = s.mem := rfl
@[simp] theorem define_run (r : Reg) (v : Word) : (s.define r v).run = s.run := rfl
@[simp] theorem define_inp (r : Reg) (v : Word) : (s.define r v).inp = s.inp := rfl
@[simp] theorem define_out (r : Reg) (v : Word) : (s.define r v).out = s.out := rfl
@[simp] theorem peek_define (r : Reg) (v : Word) (a : Word) : (s.define r v).peek a = s.peek a := rfl

/-! ### trapLink -/

@[simp] theorem reg_trapLink (q : Reg) :
    s.trapLink.reg q = if q = 7 ∧ Config.trapWritesR7 = true then s.pc else s.reg q := by
  unfold State.trapLink
  rw [reg_setReg]
  by_cases hq : q = 7 <;> cases Config.trapWritesR7 <;> simp [hq]
@[simp] theorem trapLink_pc : s.trapLink.pc = s.pc := rfl
@[simp] theorem trapLink_cond : s.trapLink.cond = s.cond := rfl
@[simp] theorem trapLink_mem : s.trapLink.mem = s.mem := rfl
@[simp] theorem trapLink_run : s.trapLink.run = s.run := rfl
@[simp] theorem trapLink_inp : s.trapLink.inp = s.inp := rfl
@[simp] theorem trapLink_out : s.trapLink.out = s.out := rfl
@[simp] theorem peek_trapLink (a : Word) : s.trapLink.peek a = s.peek a := rfl

end Sys2Proof.Machine.State
end

