-- ==== Sys2Proof/Laws/Ops.lean ====
section
/-! SUPPORT. One lemma per shared operation that says everything it can do: raw reads and writes, the input channel,
the poll, MemRead, fetch, and the string walk of PUTS and PUTSP. -/

namespace Sys2Proof.Machine

/-! ### raw access -/

@[simp] theorem State.peek_poke (s : State) (a v b : Word) :
    (s.poke a v).peek b = if b = a then v else s.peek b := by
  simp only [State.peek, State.poke_mem, Memory.read_write, BitVec.toNat_inj, eq_comm]

@[simp] theorem State.peek_memWrite (s : State) (a v b : Word) :
    (s.memWrite a v).peek b = if b = a then v else s.peek b := State.peek_poke s a v b

theorem State.wf_poke (s : State) (a v : Word) (h : Memory.wf s.mem) : Memory.wf (s.poke a v).mem :=
  Memory.wf_write v a.isLt h

/-! ### the input channel -/

theorem InChannel.took_zero_refl (c : InChannel) : InChannel.Took 0 c c := ⟨fun i => by rw [Nat.zero_add], List.suffix_refl _⟩

theorem InChannel.Took.trans {j k : Nat} {c d e : InChannel} (h : InChannel.Took j c d) (h' : InChannel.Took k d e) :
    InChannel.Took (j + k) c e :=
  ⟨fun i => by rw [h'.1, h.1, Nat.add_assoc], h'.2.trans h.2⟩

/-- What a poll does: it takes the next byte to come and answers it, or it answers not ready and takes none. -/
theorem InChannel.poll_eq (c : InChannel) :
    (∃ b rest, InChannel.poll c = (some b, rest) ∧ c.byteToCome 0 = some b ∧ InChannel.Took 1 c rest) ∨
      ∃ rest, InChannel.poll c = (none, rest) ∧ InChannel.Took 0 c rest := by
  obtain ⟨_ | ⟨_ | _, rest⟩, later⟩ := c
  · cases later with
    | ended => exact .inr ⟨_, rfl, InChannel.took_zero_refl _⟩
    | endless polls bytes =>
      by_cases h : Config.inputReady polls = true
      · refine .inl ⟨_, _, if_pos h, rfl, fun i => ?_, List.suffix_refl _⟩
        simp [InChannel.byteToCome, byteAmong, Nat.add_assoc]
      · exact .inr ⟨_, if_neg h, fun i => by simp [InChannel.byteToCome, byteAmong], List.suffix_refl _⟩
  · exact .inl ⟨_, _, rfl, rfl, fun i => by simp [InChannel.byteToCome, byteAmong, Nat.add_comm 1], List.suffix_cons _ _⟩
  · exact .inr ⟨_, rfl, fun i => by simp [InChannel.byteToCome, byteAmong], List.suffix_cons _ _⟩

/-- A wait completes exactly when a byte will still arrive, and takes the first one. -/
theorem InChannel.wait_eq (c : InChannel) :
    (c.byteToCome 0 = none ∧ InChannel.wait c = none) ∨
      ∃ b rest, InChannel.wait c = some (b, rest) ∧ c.byteToCome 0 = some b ∧ InChannel.Took 1 c rest := by
  obtain ⟨events, later⟩ := c
  induction events with
  | nil =>
    cases later with
    | ended => exact .inl ⟨rfl, rfl⟩
    | endless polls bytes =>
      exact .inr ⟨_, _, rfl, rfl, fun i => by simp [InChannel.byteToCome, byteAmong, Nat.add_assoc], List.suffix_refl _⟩
  | cons e events ih =>
    cases e with
    | byte b =>
      exact .inr ⟨b, _, rfl, rfl, fun i => by simp [InChannel.byteToCome, byteAmong, Nat.add_comm 1],
        List.suffix_cons _ _⟩
    | notReady =>
      rcases ih with ih | ⟨b, rest, h1, h2, h3⟩
      · exact .inl ih
      · exact .inr ⟨b, rest, h1, h2, fun i => h3.1 i, h3.2.trans (List.suffix_cons _ _)⟩

/-! ### the poll and MemRead -/

/-- Everything the poll does when a byte is ready. -/
theorem State.pollKeyboard_ready (s : State) {b : Byte} {rest : InChannel} (h : InChannel.poll s.inp = (some b, rest)) :
    s.pollKeyboard =
      ((s.setInp rest).poke Config.kbsrAddr 0x8000).poke Config.kbdrAddr (b.setWidth 16) := by
  simp [State.pollKeyboard, h]

/-- Everything the poll does when no byte is ready. -/
theorem State.pollKeyboard_notReady (s : State) {rest : InChannel} (h : InChannel.poll s.inp = (none, rest)) :
    s.pollKeyboard = (s.setInp rest).poke Config.kbsrAddr 0x0000 := by
  simp [State.pollKeyboard, h]

@[simp] theorem State.pollKeyboard_x (s : State) : s.pollKeyboard.x = s.x := by
  unfold State.pollKeyboard; split <;> rfl
@[simp] theorem State.pollKeyboard_pc (s : State) : s.pollKeyboard.pc = s.pc := by
  unfold State.pollKeyboard; split <;> rfl
@[simp] theorem State.pollKeyboard_cond (s : State) : s.pollKeyboard.cond = s.cond := by
  unfold State.pollKeyboard; split <;> rfl
@[simp] theorem State.pollKeyboard_run (s : State) : s.pollKeyboard.run = s.run := by
  unfold State.pollKeyboard; split <;> rfl
@[simp] theorem State.pollKeyboard_out (s : State) : s.pollKeyboard.out = s.out := by
  unfold State.pollKeyboard; split <;> rfl
@[simp] theorem State.pollKeyboard_inp (s : State) : s.pollKeyboard.inp = (InChannel.poll s.inp).2 := by
  unfold State.pollKeyboard; split <;> rfl

/-- The poll writes no cell but the two keyboard words. -/
theorem State.peek_pollKeyboard (s : State) {a : Word} (h1 : a ≠ Config.kbsrAddr) (h2 : a ≠ Config.kbdrAddr) :
    s.pollKeyboard.peek a = s.peek a := by
  unfold State.pollKeyboard; split <;> simp [h1, h2]

theorem State.wf_pollKeyboard (s : State) (h : Memory.wf s.mem) : Memory.wf s.pollKeyboard.mem := by
  unfold State.pollKeyboard
  split
  · exact State.wf_poke _ _ _ (State.wf_poke _ _ _ h)
  · exact State.wf_poke _ _ _ h

theorem State.intercept_of_ne (s : State) {a : Word} (h : a ≠ Config.kbsrAddr) : s.intercept a = s := if_neg h

theorem State.intercept_kbsr (s : State) : s.intercept Config.kbsrAddr = s.pollKeyboard := if_pos rfl

@[simp] theorem State.intercept_x (s : State) (a : Word) : (s.intercept a).x = s.x := by
  unfold State.intercept; split <;> simp
@[simp] theorem State.intercept_pc (s : State) (a : Word) : (s.intercept a).pc = s.pc := by
  unfold State.intercept; split <;> simp
@[simp] theorem State.intercept_cond (s : State) (a : Word) : (s.intercept a).cond = s.cond := by
  unfold State.intercept; split <;> simp
@[simp] theorem State.intercept_run (s : State) (a : Word) : (s.intercept a).run = s.run := by
  unfold State.intercept; split <;> simp
@[simp] theorem State.intercept_out (s : State) (a : Word) : (s.intercept a).out = s.out := by
  unfold State.intercept; split <;> simp
@[simp] theorem State.reg_intercept (s : State) (a : Word) (r : Reg) : (s.intercept a).reg r = s.reg r := by
  simp only [State.reg, State.intercept_x]

theorem State.intercept_inp (s : State) (a : Word) :
    (s.intercept a).inp = if a = Config.kbsrAddr then (InChannel.poll s.inp).2 else s.inp := by
  unfold State.intercept; split <;> simp

theorem State.peek_intercept (s : State) (a : Word) {b : Word} (h1 : b ≠ Config.kbsrAddr) (h2 : b ≠ Config.kbdrAddr) :
    (s.intercept a).peek b = s.peek b := by
  unfold State.intercept
  split
  · exact s.peek_pollKeyboard h1 h2
  · rfl

theorem State.wf_intercept (s : State) (a : Word) (h : Memory.wf s.mem) : Memory.wf (s.intercept a).mem := by
  unfold State.intercept
  split
  · exact s.wf_pollKeyboard h
  · exact h

@[simp] theorem State.memRead_fst (s : State) (a : Word) : (s.memRead a).1 = (s.intercept a).peek a := rfl
@[simp] theorem State.memRead_snd (s : State) (a : Word) : (s.memRead a).2 = s.intercept a := rfl

/-- A poll answers 0x8000 or 0x0000 (R41, R42). -/
theorem State.peek_pollKeyboard_kbsr (s : State) :
    s.pollKeyboard.peek Config.kbsrAddr = 0x8000 ∨ s.pollKeyboard.peek Config.kbsrAddr = 0x0000 := by
  unfold State.pollKeyboard
  split
  · left; simp [Config.kbsrAddr, Config.kbdrAddr]
  · right; simp

/-! ### fetch -/

@[simp] theorem State.fetch_fst (s : State) : s.fetch.1 = (s.intercept s.pc).peek s.pc := rfl
@[simp] theorem State.fetch_snd (s : State) : s.fetch.2 = (s.intercept s.pc).setPc (s.pc + 1) := rfl

theorem State.fetch_of_ne (s : State) (h : s.pc ≠ Config.kbsrAddr) :
    s.fetch = (s.peek s.pc, s.setPc (s.pc + 1)) := by
  ext1 <;> simp [State.intercept_of_ne s h]

theorem State.wf_fetch (s : State) (h : Memory.wf s.mem) : Memory.wf s.fetch.2.mem := s.wf_intercept s.pc h

/-! ### the string walk -/

/-- The walk answers the words up to the first zero word, when one stands among the next `n`. -/
theorem State.wordsFrom_eq_some (s : State) (k n : Nat) (a : Word) (hk : k < n)
    (hz : s.peek (a + BitVec.ofNat 16 k) = 0x0000)
    (hnz : ∀ j < k, s.peek (a + BitVec.ofNat 16 j) ≠ 0x0000) :
    s.wordsFrom n a = some ((List.range k).map fun j => s.peek (a + BitVec.ofNat 16 j)) := by
  induction k generalizing n a with
  | zero =>
    obtain ⟨n, rfl⟩ : ∃ m, n = m + 1 := ⟨n - 1, by omega⟩
    have h0 : s.peek a = 0x0000 := by simpa using hz
    simp [State.wordsFrom, h0]
  | succ k ih =>
    obtain ⟨n, rfl⟩ : ∃ m, n = m + 1 := ⟨n - 1, by omega⟩
    have h0 : s.peek a ≠ 0x0000 := by simpa using hnz 0 (by omega)
    have shift : ∀ j : Nat, a + 1 + BitVec.ofNat 16 j = a + BitVec.ofNat 16 (j + 1) := by
      intro j; apply BitVec.eq_of_toNat_eq; simp; omega
    rw [State.wordsFrom, if_neg h0, ih n (a + 1) (by omega) (by rw [shift]; exact hz)
      (fun j hj => by rw [shift]; exact hnz (j + 1) (by omega))]
    simpa [List.range_succ_eq_map] using fun j _ => congrArg s.peek (shift j)

/-- The walk answers nothing exactly when the `n` words from `a` are all nonzero. -/
theorem State.wordsFrom_eq_none (s : State) (n : Nat) (a : Word) :
    s.wordsFrom n a = none ↔ ∀ j < n, s.peek (a + BitVec.ofNat 16 j) ≠ 0x0000 := by
  constructor
  · intro h j hj hz
    obtain ⟨k, hkz, hmin⟩ : ∃ k, (k < n ∧ s.peek (a + BitVec.ofNat 16 k) = 0x0000) ∧
        ∀ i < k, ¬ (i < n ∧ s.peek (a + BitVec.ofNat 16 i) = 0x0000) := by
      classical
      have hex : ∃ k, k < n ∧ s.peek (a + BitVec.ofNat 16 k) = 0x0000 := ⟨j, hj, hz⟩
      exact ⟨Nat.find hex, Nat.find_spec hex, fun i hi => Nat.find_min hex hi⟩
    rw [s.wordsFrom_eq_some k n a hkz.1 hkz.2 fun i hi hi0 => hmin i hi ⟨by omega, hi0⟩] at h
    exact absurd h (by simp)
  · intro h
    induction n generalizing a with
    | zero => rfl
    | succ n ih =>
      have h0 : s.peek a ≠ 0x0000 := by simpa using h 0 (by omega)
      rw [State.wordsFrom, if_neg h0, ih (a + 1) (fun j hj => by
        have : a + 1 + BitVec.ofNat 16 j = a + BitVec.ofNat 16 (j + 1) := by
          apply BitVec.eq_of_toNat_eq; simp; omega
        rw [this]; exact h (j + 1) (by omega))]
      rfl

/-- PUTS and PUTSP never end exactly when no word of memory is zero (R130). -/
theorem State.stringAt_eq_none (s : State) (a : Word) : s.stringAt a = none ↔ ∀ b, s.peek b ≠ 0x0000 := by
  unfold State.stringAt
  rw [State.wordsFrom_eq_none]
  constructor
  · intro h b
    have := h (b - a).toNat (b - a).isLt
    rwa [BitVec.ofNat_toNat, BitVec.setWidth_eq, BitVec.add_comm, BitVec.sub_add_cancel] at this
  · exact fun h j _ => h _

/-- The string at `a` when its first zero word is the `k`-th. -/
theorem State.stringAt_eq_some (s : State) (a : Word) (k : Nat) (hk : k < 65536)
    (hz : s.peek (a + BitVec.ofNat 16 k) = 0x0000)
    (hnz : ∀ j < k, s.peek (a + BitVec.ofNat 16 j) ≠ 0x0000) :
    s.stringAt a = some ((List.range k).map fun j => s.peek (a + BitVec.ofNat 16 j)) :=
  s.wordsFrom_eq_some k 65536 a hk hz hnz

/-- The walk sees only memory. -/
theorem State.wordsFrom_congr {s t : State} (h : ∀ a, t.peek a = s.peek a) (n : Nat) (a : Word) :
    t.wordsFrom n a = s.wordsFrom n a := by
  induction n generalizing a with
  | zero => rfl
  | succ n ih => simp only [State.wordsFrom, h, ih]

theorem State.stringAt_congr {s t : State} (h : ∀ a, t.peek a = s.peek a) (a : Word) :
    t.stringAt a = s.stringAt a := State.wordsFrom_congr h 65536 a

end Sys2Proof.Machine
end

