-- ==== Sys2Proof/Laws/Exec.lean ====
section
/-! SUPPORT. The spec lemma of each meaning, as the state it answers: proofs cite these instead of unfolding `exec`.
Below them, the routines that can stop (GETC, IN, PUTS, PUTSP): when they answer, and what. -/

namespace Sys2Proof.Machine

variable (s : State)

theorem exec_br (n z p : Bool) (off : BitVec 9) :
    exec (.br n z p off) s = .next (s.setPc (if branchTaken n z p s.cond then s.pcRel off else s.pc)) := rfl
theorem exec_addReg (dr sr1 sr2 : Reg) :
    exec (.addReg dr sr1 sr2) s = .next (s.define dr (s.reg sr1 + s.reg sr2)) := rfl
theorem exec_addImm (dr sr1 : Reg) (imm : BitVec 5) :
    exec (.addImm dr sr1 imm) s = .next (s.define dr (s.reg sr1 + sext imm)) := rfl
theorem exec_andReg (dr sr1 sr2 : Reg) :
    exec (.andReg dr sr1 sr2) s = .next (s.define dr (s.reg sr1 &&& s.reg sr2)) := rfl
theorem exec_andImm (dr sr1 : Reg) (imm : BitVec 5) :
    exec (.andImm dr sr1 imm) s = .next (s.define dr (s.reg sr1 &&& sext imm)) := rfl
theorem exec_not (dr sr : Reg) : exec (.not dr sr) s = .next (s.define dr (~~~ s.reg sr)) := rfl
theorem exec_jmp (base : Reg) : exec (.jmp base) s = .next (s.setPc (s.reg base)) := rfl
theorem exec_jsr (off : BitVec 11) : exec (.jsr off) s = .next ((s.setReg 7 s.pc).setPc (s.pcRel off)) := rfl
/-- Both orders of JSRR_BASE_READ in one equation: they differ only for BaseR = R7. -/
theorem exec_jsrr (base : Reg) :
    exec (.jsrr base) s = .next ((s.setReg 7 s.pc).setPc
      (if Config.jsrrBaseRead = .afterLink ∧ base = 7 then s.pc else s.reg base)) := by
  unfold exec execJsrr
  cases Config.jsrrBaseRead <;> simp
theorem exec_lea (dr : Reg) (off : BitVec 9) : exec (.lea dr off) s = .next (s.define dr (s.pcRel off)) := rfl
theorem exec_ld (dr : Reg) (off : BitVec 9) :
    exec (.ld dr off) s =
      .next ((s.intercept (s.pcRel off)).define dr ((s.intercept (s.pcRel off)).peek (s.pcRel off))) := rfl
theorem exec_ldr (dr base : Reg) (off : BitVec 6) :
    exec (.ldr dr base off) s =
      .next ((s.intercept (s.baseOffset base off)).define dr
        ((s.intercept (s.baseOffset base off)).peek (s.baseOffset base off))) := rfl
theorem exec_ldi (dr : Reg) (off : BitVec 9) :
    exec (.ldi dr off) s =
      .next ((((s.memRead (s.pcRel off)).2).memRead (s.memRead (s.pcRel off)).1).2.define dr
        (((s.memRead (s.pcRel off)).2).memRead (s.memRead (s.pcRel off)).1).1) := rfl
theorem exec_st (sr : Reg) (off : BitVec 9) :
    exec (.st sr off) s = .next (s.memWrite (s.pcRel off) (s.reg sr)) := rfl
theorem exec_str (sr base : Reg) (off : BitVec 6) :
    exec (.str sr base off) s = .next (s.memWrite (s.baseOffset base off) (s.reg sr)) := rfl
theorem exec_sti (sr : Reg) (off : BitVec 9) :
    exec (.sti sr off) s =
      .next ((s.memRead (s.pcRel off)).2.memWrite (s.memRead (s.pcRel off)).1 (s.reg sr)) := rfl
theorem exec_rti : exec .rti s = .next (s.raise (.invalidOpcode 0x8)) := rfl
theorem exec_res : exec .res s = .next (s.raise (.invalidOpcode 0xD)) := rfl
theorem exec_getc : exec .getc s = getcRoutine s.trapLink := rfl
theorem exec_out : exec .out s = outRoutine s.trapLink := rfl
theorem exec_puts : exec .puts s = putsRoutine s.trapLink := rfl
theorem exec_in : exec .in_ s = inRoutine s.trapLink := rfl
theorem exec_putsp : exec .putsp s = putspRoutine s.trapLink := rfl
theorem exec_halt : exec .halt s = .next (s.trapLink.put Config.haltMessage).halt := rfl

/-- For a code outside the six, TRAP is UNKNOWN(code) (R129). -/
theorem exec_trap {code : BitVec 8} (h : (Instr.trap code).wellFormed = true) :
    exec (.trap code) s = .next (s.trapLink.raise (.unknownTrap code)) := by
  simp only [Instr.wellFormed, namedTrapCodes, Bool.not_eq_true', List.contains_eq_mem,
    decide_eq_false_iff_not, List.mem_cons, List.not_mem_nil, or_false, not_or] at h
  obtain ⟨h0, h1, h2, h3, h4, h5⟩ := h
  unfold exec execTrap
  simp only [if_neg h0, if_neg h1, if_neg h2, if_neg h3, if_neg h4, if_neg h5]
  rfl

/-! ### The routines that can stop -/

/-- GETC completes exactly when a byte will still arrive (R123, R130). -/
theorem getcRoutine_cases :
    (s.inp.byteToCome 0 = none ∧ getcRoutine s = .fault (.waitsForever s)) ∨
      ∃ c rest, s.inp.byteToCome 0 = some c ∧ InChannel.Took 1 s.inp rest ∧
        getcRoutine s = .next ((s.setInp rest).setReg 0 (zext8 c)) := by
  rcases InChannel.wait_eq s.inp with ⟨hb, hw⟩ | ⟨c, rest, hw, hb, hs⟩
  · exact .inl ⟨hb, by simp [getcRoutine, hw]⟩
  · exact .inr ⟨c, rest, hb, hs, by simp [getcRoutine, hw]⟩

/-- IN completes exactly when a byte will still arrive; the prompt is output either way (R126, R130). -/
theorem inRoutine_cases :
    (s.inp.byteToCome 0 = none ∧ inRoutine s = .fault (.waitsForever (s.put Config.inPrompt))) ∨
      ∃ c rest, s.inp.byteToCome 0 = some c ∧ InChannel.Took 1 s.inp rest ∧
        inRoutine s = .next (((s.put (Config.inPrompt ++ [c])).setInp rest).setReg 0 (zext8 c)) := by
  rcases InChannel.wait_eq s.inp with ⟨hb, hw⟩ | ⟨c, rest, hw, hb, hs⟩
  · exact .inl ⟨hb, by simp [inRoutine, hw]⟩
  · exact .inr ⟨c, rest, hb, hs, by simp [inRoutine, hw]⟩

/-- PUTS completes exactly when some word of memory is zero (R125, R130). -/
theorem putsRoutine_cases :
    ((∀ b, s.peek b ≠ 0x0000) ∧ putsRoutine s = .fault (.endlessString s)) ∨
      ∃ ws, s.stringAt (s.reg 0) = some ws ∧ putsRoutine s = .next (s.put (putsBytes ws)) := by
  cases h : s.stringAt (s.reg 0) with
  | none => exact .inl ⟨(s.stringAt_eq_none _).1 h, by simp [putsRoutine, h]⟩
  | some ws => exact .inr ⟨ws, rfl, by simp [putsRoutine, h]⟩

/-- PUTSP completes exactly when some word of memory is zero (R127, R130). -/
theorem putspRoutine_cases :
    ((∀ b, s.peek b ≠ 0x0000) ∧ putspRoutine s = .fault (.endlessString s)) ∨
      ∃ ws, s.stringAt (s.reg 0) = some ws ∧ putspRoutine s = .next (s.put (putspBytes ws)) := by
  cases h : s.stringAt (s.reg 0) with
  | none => exact .inl ⟨(s.stringAt_eq_none _).1 h, by simp [putspRoutine, h]⟩
  | some ws => exact .inr ⟨ws, rfl, by simp [putspRoutine, h]⟩

/-! ### What any routine that completes leaves unchanged -/

/-- `t` is `s` but for R0, bytes appended to the output, at most one byte taken from the front of the input, and the run state: all that a
trap routine that completes can do (R120: no routine writes COND, pc or memory). -/
def RoutineEffect (s t : State) : Prop :=
  t.mem = s.mem ∧ t.cond = s.cond ∧ t.pc = s.pc ∧ (∃ j ≤ 1, InChannel.Took j s.inp t.inp) ∧ (∃ bs, t.out = s.out ++ bs) ∧
    ∀ r : Reg, r ≠ 0 → t.reg r = s.reg r

theorem getcRoutine_effect {s t : State} (h : getcRoutine s = .next t) : RoutineEffect s t := by
  rcases getcRoutine_cases s with ⟨-, h1⟩ | ⟨c, rest, -, hs, h1⟩
  · exact absurd (h1.symm.trans h) (by simp)
  · obtain rfl := Host.Outcome.next.inj (h1.symm.trans h)
    exact ⟨rfl, rfl, rfl, ⟨1, le_rfl, hs⟩, ⟨[], by simp⟩, fun r hr => by simp [hr]⟩

theorem inRoutine_effect {s t : State} (h : inRoutine s = .next t) : RoutineEffect s t := by
  rcases inRoutine_cases s with ⟨-, h1⟩ | ⟨c, rest, -, hs, h1⟩
  · exact absurd (h1.symm.trans h) (by simp)
  · obtain rfl := Host.Outcome.next.inj (h1.symm.trans h)
    exact ⟨rfl, rfl, rfl, ⟨1, le_rfl, hs⟩, ⟨_, rfl⟩, fun r hr => by simp [hr]⟩

theorem outRoutine_effect {s t : State} (h : outRoutine s = .next t) : RoutineEffect s t := by
  obtain rfl := Host.Outcome.next.inj h
  exact ⟨rfl, rfl, rfl, ⟨0, Nat.zero_le 1, InChannel.took_zero_refl _⟩, ⟨_, rfl⟩, fun _ _ => rfl⟩

theorem putsRoutine_effect {s t : State} (h : putsRoutine s = .next t) : RoutineEffect s t := by
  rcases putsRoutine_cases s with ⟨-, h1⟩ | ⟨ws, -, h1⟩
  · exact absurd (h1.symm.trans h) (by simp)
  · obtain rfl := Host.Outcome.next.inj (h1.symm.trans h)
    exact ⟨rfl, rfl, rfl, ⟨0, Nat.zero_le 1, InChannel.took_zero_refl _⟩, ⟨_, rfl⟩, fun _ _ => rfl⟩

theorem putspRoutine_effect {s t : State} (h : putspRoutine s = .next t) : RoutineEffect s t := by
  rcases putspRoutine_cases s with ⟨-, h1⟩ | ⟨ws, -, h1⟩
  · exact absurd (h1.symm.trans h) (by simp)
  · obtain rfl := Host.Outcome.next.inj (h1.symm.trans h)
    exact ⟨rfl, rfl, rfl, ⟨0, Nat.zero_le 1, InChannel.took_zero_refl _⟩, ⟨_, rfl⟩, fun _ _ => rfl⟩

theorem haltRoutine_effect {s t : State} (h : haltRoutine s = .next t) : RoutineEffect s t := by
  obtain rfl := Host.Outcome.next.inj h
  exact ⟨rfl, rfl, rfl, ⟨0, Nat.zero_le 1, InChannel.took_zero_refl _⟩, ⟨_, rfl⟩, fun _ _ => rfl⟩

theorem unknownTrap_effect {code : BitVec 8} {s t : State} (h : unknownTrap code s = .next t) :
    RoutineEffect s t := by
  obtain rfl := Host.Outcome.next.inj h
  exact ⟨rfl, rfl, rfl, ⟨0, Nat.zero_le 1, InChannel.took_zero_refl _⟩, ⟨[], by simp⟩, fun _ _ => rfl⟩

/-- Every row of the TRAP opcode: its routine runs on the linked state (R120, R121). -/
theorem execTrap_effect {code : BitVec 8} {s t : State} (h : exec (.trap code) s = .next t) :
    RoutineEffect s.trapLink t := by
  unfold exec execTrap at h
  simp only at h
  split_ifs at h
  · exact getcRoutine_effect h
  · exact outRoutine_effect h
  · exact putsRoutine_effect h
  · exact inRoutine_effect h
  · exact putspRoutine_effect h
  · exact haltRoutine_effect h
  · exact unknownTrap_effect h

/-! ### step -/

/-- A step of a RUNNING block is fetch and then execute (R175). -/
theorem step_running {s : State} (h : s.run = .running) : step s = exec (decode s.fetch.1) s.fetch.2 := by
  simp [step, h]

/-- A step has a next state only in RUNNING (R175). -/
theorem step_next {s t : State} (h : step s = .next t) :
    s.run = .running ∧ exec (decode s.fetch.1) s.fetch.2 = .next t := by
  unfold step at h
  split at h
  · exact ⟨‹_›, h⟩
  · simp at h
  · simp at h

end Sys2Proof.Machine
end

