-- ==== Sys2Proof/Laws/Loader.lean ====
section
/-! SUPPORT. The loader keeps the canonical form of memory. -/

namespace Sys2Proof.Machine

theorem wf_loadWords (b : List Byte) (a : Nat) {m : Memory} (hm : Memory.wf m) : Memory.wf (loadWords b a m) := by
  induction b, a, m using loadWords.induct with
  | case1 hi lo rest a m h ih =>
    rw [loadWords, if_pos h]
    exact ih (Memory.wf_write _ h hm)
  | case2 hi lo rest a m h => rwa [loadWords, if_neg h]
  | case3 b a m h => rwa [loadWords]; exact h

theorem wf_loadImage {image : Image} {m m' : Memory} (hm : Memory.wf m) (h : loadImage image m = some m') :
    Memory.wf m' := by
  unfold loadImage at h
  split at h <;> simp at h
  subst h
  exact wf_loadWords _ _ hm

theorem wf_loadImages (images : List Image) {m : Memory} (hm : Memory.wf m) : Memory.wf (loadImages images m).1 := by
  induction images generalizing m with
  | nil => exact hm
  | cons image rest ih =>
    unfold loadImages
    split
    · exact ih (wf_loadImage hm ‹_›)
    · exact ih hm

end Sys2Proof.Machine
end

