-- ==== Sys2Proof/Laws/Frames.lean ====
section
/-! SUPPORT. The frames of the shared operations, in the terms of Safety.lean. -/

namespace Sys2Proof.Machine

theorem definesOnly_define (s : State) (dr : Reg) (v : Word) : DefinesOnly s (s.define dr v) dr v := by
  refine ⟨by simp, rfl, fun r hr => ?_, fun _ _ => rfl, rfl, rfl, rfl, rfl⟩
  rw [State.reg_define, if_neg (by simpa using hr)]

theorem jumpsOnly_setPc (s : State) (a : Word) : JumpsOnly s (s.setPc a) a :=
  ⟨rfl, fun _ _ => rfl, rfl, fun _ _ => rfl, rfl, rfl, rfl⟩

theorem faultsOnly_raise (s : State) (reason : FaultReason) : FaultsOnly s (s.raise reason) reason :=
  ⟨rfl, fun _ _ => rfl, rfl, rfl, fun _ _ => rfl, rfl, rfl⟩

/-- Reading an address changes no cell but the keyboard words, and those only when it is KBSR_ADDR. -/
theorem memKept_intercept (s : State) (a : Word) : MemKept s (s.intercept a) (pollCells [a]) := by
  intro b hb
  by_cases h : a = Config.kbsrAddr
  · have hp : pollCells [a] = [0xFE00, 0xFE02] := by rw [h]; rfl
    rw [hp, List.mem_cons, List.mem_singleton, not_or] at hb
    exact s.peek_intercept a hb.1 hb.2
  · rw [s.intercept_of_ne h]

/-- The linked state keeps every register but R7. -/
theorem regsKept_trapLink (s : State) : RegsKept s s.trapLink [7] := by
  intro r hr
  rw [State.reg_trapLink, if_neg (by simpa using fun h => absurd h (by simpa using hr))]

theorem linked_trapLink (s : State) : Linked s s.trapLink := by simp [Linked]

/-- The string of PUTS and PUTSP on the linked state is the string of the state: the link writes R7, not R0. -/
theorem stringAt_trapLink (s : State) : s.trapLink.stringAt (s.trapLink.reg 0) = s.stringAt (s.reg 0) := by
  rw [State.stringAt_congr (s := s) (by simp), State.reg_trapLink, if_neg (by simp)]

/-- The string when its terminator is the `k`-th word. -/
theorem stringAt_of_terminatedAt {s : State} {a : Word} {k : Nat} (h : TerminatedAt s a k) :
    s.stringAt a = some (wordsAt s a k) := s.stringAt_eq_some a k h.1 h.2.1 h.2.2

end Sys2Proof.Machine
end

