-- ==== Sys2Proof/Laws/PerInstr.lean ====
section
/-! SUPPORT. Statements about every instruction, made per constructor. The family `EncodeHitsRow`: the encoder's word
of an instruction has the mask and match bits of its row of spec/opcode_table.json. -/

namespace Sys2Proof

/-! ### The masks of the formats -/

theorem mask_opcode_dss (op : BitVec 4) (a b : BitVec 3) (c : BitVec 6) :
    (op ++ a ++ b ++ c) &&& (0xF#4 ++ 0#3 ++ 0#3 ++ 0#6) = op ++ 0#3 ++ 0#3 ++ 0#6 := by
  rw [BitVec.and_append, BitVec.and_append, BitVec.and_append, BitVec.and_zero, BitVec.and_zero, BitVec.and_zero]
  congr 3
  exact BitVec.and_allOnes

theorem mask_pc9 (op : BitVec 4) (a : BitVec 3) (c : BitVec 9) :
    (op ++ a ++ c) &&& (0xF#4 ++ 0#3 ++ 0#9) = op ++ 0#3 ++ 0#9 := by
  rw [BitVec.and_append, BitVec.and_append, BitVec.and_zero, BitVec.and_zero]
  congr 2
  exact BitVec.and_allOnes

theorem mask_opr (op : BitVec 4) (a b : BitVec 3) (m : BitVec 1) (xx : BitVec 2) (t : BitVec 3) :
    (op ++ a ++ b ++ m ++ xx ++ t) &&& (0xF#4 ++ 0#3 ++ 0#3 ++ 1#1 ++ 0#2 ++ 0#3) =
      op ++ 0#3 ++ 0#3 ++ m ++ 0#2 ++ 0#3 := by
  rw [BitVec.and_append, BitVec.and_append, BitVec.and_append, BitVec.and_append, BitVec.and_append,
    BitVec.and_zero, BitVec.and_zero, BitVec.and_zero, BitVec.and_zero]
  congr 5
  · exact BitVec.and_allOnes
  · exact BitVec.and_allOnes (w := 1)

theorem mask_opi (op : BitVec 4) (a b : BitVec 3) (m : BitVec 1) (i : BitVec 5) :
    (op ++ a ++ b ++ m ++ i) &&& (0xF#4 ++ 0#3 ++ 0#3 ++ 1#1 ++ 0#5) = op ++ 0#3 ++ 0#3 ++ m ++ 0#5 := by
  rw [BitVec.and_append, BitVec.and_append, BitVec.and_append, BitVec.and_append,
    BitVec.and_zero, BitVec.and_zero, BitVec.and_zero]
  congr 4
  · exact BitVec.and_allOnes
  · exact BitVec.and_allOnes (w := 1)

theorem mask_j11 (op : BitVec 4) (l : BitVec 1) (i : BitVec 11) :
    (op ++ l ++ i) &&& (0xF#4 ++ 1#1 ++ 0#11) = op ++ l ++ 0#11 := by
  rw [BitVec.and_append, BitVec.and_append, BitVec.and_zero]
  congr 2
  · exact BitVec.and_allOnes
  · exact BitVec.and_allOnes (w := 1)

theorem mask_trap (op : BitVec 4) (xx : BitVec 4) (v : BitVec 8) :
    (op ++ xx ++ v) &&& (0xF#4 ++ 0#4 ++ 0#8) = op ++ 0#4 ++ 0#8 := by
  rw [BitVec.and_append, BitVec.and_append, BitVec.and_zero, BitVec.and_zero]
  congr 2
  exact BitVec.and_allOnes

/-- A word whose masked bits are the pattern belongs to the row. -/
theorem Row.hits_of_eq {r : Row} {w : Word} (h : w &&& r.mask = r.pattern) : r.hits w = true := by
  simp [Row.hits, h]

/-! ### The family -/

/-- The encoder's word belongs to the instruction's row of the opcode table. -/
def Laws.EncodeHitsRow.Statement (i : Instr) : Prop := i.row.hits (encode i) = true

namespace Laws.EncodeHitsRow

theorem br (n z p : Bool) (off : BitVec 9) : Statement (.br n z p off) :=
  Row.hits_of_eq (mask_pc9 0b0000#4 (nzpBits n z p) off)
theorem addReg (dr sr1 sr2 : Reg) : Statement (.addReg dr sr1 sr2) :=
  Row.hits_of_eq (mask_opr 0b0001#4 (regBits dr) (regBits sr1) 0 0 (regBits sr2))
theorem addImm (dr sr1 : Reg) (imm : BitVec 5) : Statement (.addImm dr sr1 imm) :=
  Row.hits_of_eq (mask_opi 0b0001#4 (regBits dr) (regBits sr1) 1 imm)
theorem ld (dr : Reg) (off : BitVec 9) : Statement (.ld dr off) :=
  Row.hits_of_eq (mask_pc9 0b0010#4 (regBits dr) off)
theorem st (sr : Reg) (off : BitVec 9) : Statement (.st sr off) :=
  Row.hits_of_eq (mask_pc9 0b0011#4 (regBits sr) off)
theorem jsr (off : BitVec 11) : Statement (.jsr off) := Row.hits_of_eq (mask_j11 0b0100#4 1 off)
theorem jsrr (base : Reg) : Statement (.jsrr base) := by unfold Statement; revert base; decide
theorem andReg (dr sr1 sr2 : Reg) : Statement (.andReg dr sr1 sr2) :=
  Row.hits_of_eq (mask_opr 0b0101#4 (regBits dr) (regBits sr1) 0 0 (regBits sr2))
theorem andImm (dr sr1 : Reg) (imm : BitVec 5) : Statement (.andImm dr sr1 imm) :=
  Row.hits_of_eq (mask_opi 0b0101#4 (regBits dr) (regBits sr1) 1 imm)
theorem ldr (dr base : Reg) (off : BitVec 6) : Statement (.ldr dr base off) :=
  Row.hits_of_eq (mask_opcode_dss 0b0110#4 (regBits dr) (regBits base) off)
theorem str (sr base : Reg) (off : BitVec 6) : Statement (.str sr base off) :=
  Row.hits_of_eq (mask_opcode_dss 0b0111#4 (regBits sr) (regBits base) off)
theorem rti : Statement .rti := rfl
theorem not (dr sr : Reg) : Statement (.not dr sr) :=
  Row.hits_of_eq (mask_opcode_dss 0b1001#4 (regBits dr) (regBits sr) 0b111111)
theorem ldi (dr : Reg) (off : BitVec 9) : Statement (.ldi dr off) :=
  Row.hits_of_eq (mask_pc9 0b1010#4 (regBits dr) off)
theorem sti (sr : Reg) (off : BitVec 9) : Statement (.sti sr off) :=
  Row.hits_of_eq (mask_pc9 0b1011#4 (regBits sr) off)
theorem jmp (base : Reg) : Statement (.jmp base) := by unfold Statement; revert base; decide
theorem res : Statement .res := rfl
theorem lea (dr : Reg) (off : BitVec 9) : Statement (.lea dr off) :=
  Row.hits_of_eq (mask_pc9 0b1110#4 (regBits dr) off)
theorem getc : Statement .getc := rfl
theorem out : Statement .out := rfl
theorem puts : Statement .puts := rfl
theorem in_ : Statement .in_ := rfl
theorem putsp : Statement .putsp := rfl
theorem halt : Statement .halt := rfl
theorem trap (code : BitVec 8) : Statement (.trap code) := Row.hits_of_eq (mask_trap 0b1111#4 0b0000#4 code)

end Laws.EncodeHitsRow

end Sys2Proof
end

