-- ==== Sys2Proof/Tests/Slice0.lean ====
section
/-! SUPPORT. Tests: the well-formedness check's smoke test, the decoding of a written-out word of every row, single
steps on the spec's vectors (95_test_vectors.md: the ids E and V), and a witness for the hypotheses of each
statement that has some. -/

namespace Sys2Proof.Machine

/-! ### Helpers -/

/-- The next state, if there is one. -/
def nextOf : Host.Outcome State Fault Refusal → Option State
  | .next t => some t
  | .fault _ | .refused _ => none

/-- The stop, if there is one. -/
def faultOf : Host.Outcome State Fault Refusal → Option Fault
  | .fault f => some f
  | .next _ | .refused _ => none

/-- A RUNNING state at `pc`, with the word `w` there and the given registers, flag, other memory and queued input, after
which the input has ended. -/
def at' (w pc : Word) (x : Vector Word 8) (cond : Cond) (m : Memory) (events : List InEvent) : State :=
  { x := x, pc := pc, cond := cond, mem := Memory.write m pc.toNat w, run := .running,
    inp := ⟨events, .ended⟩, out := [] }

def regs0 : Vector Word 8 := Vector.replicate 8 0

/-! ### Well-formedness: the one check (the generic TRAP row holds none of the six codes) -/

theorem test_wellFormed_refuses_named_trap_codes :
    (Instr.trap 0x20).wellFormed = false ∧ (Instr.trap 0x25).wellFormed = false := by decide
theorem test_wellFormed_accepts_other_trap_codes :
    (Instr.trap 0x1F).wellFormed = true ∧ (Instr.trap 0x26).wellFormed = true ∧ (Instr.trap 0xFF).wellFormed = true := by
  decide

/-! ### Decoding: a word of every row, bit by bit from 30_encoding.md R67 -/

theorem test_decode_operate :
    decode 0b0001_000_001_0_00_010 = .addReg 0 1 2 ∧ decode 0b0001_000_001_0_11_010 = .addReg 0 1 2 ∧
    decode 0b0001_000_001_1_00011 = .addImm 0 1 3 ∧ decode 0b0101_011_001_0_00_110 = .andReg 3 1 6 ∧
    decode 0b0101_010_010_1_10000 = .andImm 2 2 0b10000 ∧ decode 0b1001_000_001_111111 = .not 0 1 ∧
    decode 0b1001_000_001_000000 = .not 0 1 := by decide
theorem test_decode_control :
    decode 0b0000_001_111111101 = .br false false true 0b111111101 ∧
    decode 0b0000_100_000000101 = .br true false false 5 ∧ decode 0b0000_010_000000010 = .br false true false 2 ∧
    decode 0b1100_000_111_000000 = .jmp 7 ∧ decode 0b1100_111_111_111111 = .jmp 7 ∧
    decode 0b0100_1_11111111111 = .jsr 0b11111111111 ∧ decode 0b0100_0_11_011_000000 = .jsrr 3 := by decide
theorem test_decode_load_store :
    decode 0b0010_001_100000001 = .ld 1 0b100000001 ∧ decode 0b1010_011_000000110 = .ldi 3 6 ∧
    decode 0b0110_001_010_100000 = .ldr 1 2 0b100000 ∧ decode 0b1110_001_000000111 = .lea 1 7 ∧
    decode 0b0011_011_000000101 = .st 3 5 ∧ decode 0b1011_100_000000100 = .sti 4 4 ∧
    decode 0b0111_010_001_000010 = .str 2 1 2 := by decide
theorem test_decode_trap_and_invalid :
    decode 0b1111_0000_00100000 = .getc ∧ decode 0b1111_0000_00100001 = .out ∧ decode 0b1111_0000_00100010 = .puts ∧
    decode 0b1111_0000_00100011 = .in_ ∧ decode 0b1111_0000_00100100 = .putsp ∧ decode 0b1111_1111_00100101 = .halt ∧
    decode 0b1111_0000_11111111 = .trap 0xFF ∧ decode 0b1000_111111111111 = .rti ∧
    decode 0b1101_101010111100 = .res := by decide
theorem test_decodeTableWord_jsr_without_operand_bits :
    decodeTableWord 16 0x4802 = some (.jsr 2) ∧ decodeTableWord 8 0x4802 = some (.br false false false 2) ∧
    decodeTableWord 17 0x4802 = none := by decide

/-! ### Operate (40_operate.md) -/

/-- V3: signed overflow. -/
theorem test_addReg_signed_overflow :
    (nextOf (step (at' 0x1042 0x3000 #v[0, 0x7FFF, 1, 0, 0, 0, 0, 0] .z [] []))).map (fun t => (t.reg 0, t.cond, t.pc)) =
      some (0x8000, .n, 0x3001) := by decide
/-- V5: the destination is both sources. -/
theorem test_addReg_doubles :
    (nextOf (step (at' 0x1241 0x3000 #v[0, 0x4000, 0, 0, 0, 0, 0, 0] .z [] []))).map (fun t => (t.reg 1, t.cond)) =
      some (0x8000, .n) := by decide
/-- E1. -/
theorem test_addImm_example :
    (nextOf (step (at' 0x1063 0x3000 #v[0, 5, 0, 0, 0, 0, 0, 0] .z [] []))).map (fun t => (t.reg 0, t.cond)) =
      some (8, .p) := by decide
/-- V6: the immediate is sign-extended. -/
theorem test_addImm_minus16 :
    (nextOf (step (at' 0x1070 0x3000 #v[7, 0x10, 0, 0, 0, 0, 0, 0] .n [] []))).map (fun t => (t.reg 0, t.cond)) =
      some (0, .z) := by decide
/-- V12: AND is not an addition (C1). -/
theorem test_andReg_is_bitwise :
    (nextOf (step (at' 0x5042 0x3000 #v[0, 1, 1, 0, 0, 0, 0, 0] .z [] []))).map (fun t => (t.reg 0, t.cond)) =
      some (1, .p) := by decide
/-- V15: a negative immediate keeps bits 15:5. -/
theorem test_andImm_minus16 :
    (nextOf (step (at' 0x5070 0x3000 #v[0, 0x1234, 0, 0, 0, 0, 0, 0] .z [] []))).map (fun t => (t.reg 0, t.cond)) =
      some (0x1230, .p) := by decide
/-- E2. -/
theorem test_not_example :
    (nextOf (step (at' 0x907F 0x3000 #v[0, 0x000F, 0, 0, 0, 0, 0, 0] .z [] []))).map (fun t => (t.reg 0, t.cond)) =
      some (0xFFF0, .n) := by decide

/-! ### Control (41_control.md) -/

/-- V28: the target wraps. -/
theorem test_br_wraps :
    (nextOf (step (at' 0x0E01 0xFFFF regs0 .p [] []))).map (fun t => t.pc) = some 0x0001 := by decide
/-- V22: BRn tests only N. -/
theorem test_brn_tests_n :
    (nextOf (step (at' 0x0805 0x3000 regs0 .n [] []))).map (fun t => t.pc) = some 0x3006 ∧
    (nextOf (step (at' 0x0805 0x3000 regs0 .p [] []))).map (fun t => t.pc) = some 0x3001 := by decide
/-- V31: RET with the ignored bits set. -/
theorem test_jmp_ret :
    (nextOf (step (at' 0xCFFF 0x3000 #v[0, 0, 0, 0, 0, 0, 0, 0x3456] .z [] []))).map (fun t => t.pc) =
      some 0x3456 := by decide
/-- V35: the lowest offset. -/
theorem test_jsr_minus1024 :
    (nextOf (step (at' 0x4C00 0x3000 regs0 .z [] []))).map (fun t => (t.reg 7, t.pc)) = some (0x3001, 0x2C01) := by decide
/-- V37, for both values of JSRR_BASE_READ. -/
theorem test_jsrr_r3 :
    (nextOf (exec (.jsrr 3) (at' 0x40C0 0x3001 #v[0, 0, 0, 0x5000, 0, 0, 0, 0] .z [] []))).map
      (fun t => (t.reg 7, t.pc)) = some (0x3001, 0x5000) := by
  rw [exec_jsrr, if_neg (by simp)]; decide
/-- V39. -/
theorem test_jsrr_r7 :
    (nextOf (exec (.jsrr 7) (at' 0x41C0 0x3001 #v[0, 0, 0, 0, 0, 0, 0, 0x4000] .z [] []))).map (fun t => t.pc) =
      some (if Config.jsrrBaseRead = .afterLink then 0x3001 else 0x4000) := by
  rw [exec_jsrr]; cases Config.jsrrBaseRead <;> decide

/-! ### Loads (42_load.md) -/

/-- V42: the effective address wraps. -/
theorem test_ld_wraps :
    (nextOf (step (at' 0x2201 0xFFFF regs0 .z [(1, 0x42)] []))).map (fun t => (t.reg 1, t.cond)) =
      some (0x42, .p) := by decide
/-- V43: a poll with a byte ready. -/
theorem test_ld_polls :
    (nextOf (step (at' 0x2400 0xFDFF regs0 .z [] [.byte 0x61]))).map
      (fun t => (t.reg 2, t.cond, t.peek 0xFE00, t.peek 0xFE02, t.inp.events)) =
      some (0x8000, .n, 0x8000, 0x0061, []) := by decide
/-- V45: the pointer is 0xFE00, so the second read polls. -/
theorem test_ldi_polls :
    (nextOf (step (at' 0xA203 0x3000 regs0 .z [(0x3004, 0xFE00)] [.byte 0x41]))).map
      (fun t => (t.reg 1, t.cond, t.peek 0xFE02)) = some (0x8000, .n, 0x0041) := by decide
/-- V47. -/
theorem test_ldi_reads_twice :
    (nextOf (step (at' 0xA606 0x3002 regs0 .z [(0x3009, 0x4000), (0x4000, 0xFFFF)] []))).map
      (fun t => (t.reg 3, t.cond)) = some (0xFFFF, .n) := by decide
/-- V49: the destination is the base. -/
theorem test_ldr_base_is_destination :
    (nextOf (step (at' 0x627F 0x3000 #v[0, 0x4001, 0, 0, 0, 0, 0, 0] .z [(0x4000, 0x1234)] []))).map
      (fun t => (t.reg 1, t.cond)) = some (0x1234, .p) := by decide
/-- V55: LEA of 0xFE00 does not poll. -/
theorem test_lea_does_not_poll :
    (nextOf (step (at' 0xE000 0xFDFF regs0 .z [] [.byte 0x41]))).map (fun t => (t.reg 0, t.cond, t.inp.events)) =
      some (0xFE00, .n, [.byte 0x41]) := by decide

/-! ### Stores (43_store.md) -/

/-- V58: a single dereference (C1). -/
theorem test_st_is_direct :
    (nextOf (step (at' 0x3605 0x3004 #v[0, 0, 0, 1, 0, 0, 0, 0] .z [(0x300A, 0x4000)] []))).map
      (fun t => (t.peek 0x300A, t.peek 0x4000, t.cond)) = some (1, 0, .z) := by decide
/-- V61: the pointer read polls, then the store. -/
theorem test_sti_pointer_polls :
    (nextOf (step (at' 0xB000 0xFDFF #v[0xAA, 0, 0, 0, 0, 0, 0, 0] .z [] [.byte 0x63]))).map
      (fun t => (t.peek 0xFE00, t.peek 0xFE02, t.peek 0x8000)) = some (0x8000, 0x63, 0xAA) := by decide
/-- V59. -/
theorem test_sti_stores_at_pointer :
    (nextOf (step (at' 0xB804 0x3006 #v[0, 0, 0, 0, 0xFFF1, 0, 0, 0] .z [(0x300B, 0x300C)] []))).map
      (fun t => (t.peek 0x300C, t.peek 0x300B)) = some (0xFFF1, 0x300C) := by decide
/-- V64. -/
theorem test_str_wraps :
    (nextOf (step (at' 0x7060 0x3000 #v[1, 0, 0, 0, 0, 0, 0, 0] .z [] []))).map (fun t => t.peek 0xFFE0) = some 1 := by
  decide

/-! ### TRAP (44_trap.md) -/

/-- V85: GETC of a zero byte leaves COND. -/
theorem test_getc_leaves_cond :
    (nextOf (step (at' 0xF020 0x3000 #v[9, 0, 0, 0, 0, 0, 0, 0] .p [] [.notReady, .byte 0x00]))).map
      (fun t => (t.reg 0, t.cond, t.inp.events, t.out)) = some (0, .p, [], []) := by decide
/-- R31: with the input open, as at reset, GETC and IN complete with the host's byte, whatever it is. -/
theorem test_getc_from_reset :
    (nextOf (step (State.reset.withFetchWord 16 0xF020))).map (fun t => t.reg 0) =
      some (zext8 (Config.inputByte 0)) := by rfl
theorem test_in_from_reset :
    (nextOf (step (State.reset.withFetchWord 16 0xF023))).map (fun t => (t.reg 0, t.out)) =
      some (zext8 (Config.inputByte 0), Config.inPrompt ++ [Config.inputByte 0]) := by rfl
/-- R130: with no byte to come GETC does not complete. -/
theorem test_getc_waits : nextOf (step (at' 0xF020 0x3000 regs0 .p [] [.notReady])) = none := by decide
/-- V73. -/
theorem test_out_low_byte :
    (nextOf (step (at' 0xF021 0x3000 #v[0xFF0A, 0, 0, 0, 0, 0, 0, 0] .z [] []))).map (fun t => t.out) =
      some [0x0A] := by decide
/-- V76: the walk wraps; V74: a word with a high byte puts its low byte. -/
theorem test_puts_wraps :
    (nextOf (step (at' 0xF022 0x3000 #v[0xFFFF, 0, 0, 0, 0, 0, 0, 0] .z [(0, 0x0142), (0xFFFF, 0x41)] []))).map
      (fun t => t.out) = some [0x41, 0x42] := by decide
/-- V77: a string over 0xFE00 is read raw. -/
theorem test_puts_does_not_poll :
    (nextOf (step (at' 0xF022 0x3000 #v[0xFE00, 0, 0, 0, 0, 0, 0, 0] .z [(0xFE00, 0x58)] [.byte 0x41]))).map
      (fun t => (t.out, t.inp.events)) = some ([0x58], [.byte 0x41]) := by decide
/-- V78. -/
theorem test_in_prompts_and_echoes :
    (nextOf (step (at' 0xF023 0x3000 regs0 .z [] [.byte 0x71]))).map (fun t => (t.reg 0, t.out)) =
      some (0x71, Config.inPrompt ++ [0x71]) := by rfl
/-- V79: a zero low byte is output. -/
theorem test_putsp_zero_low_byte :
    (nextOf (step (at' 0xF024 0x3000 #v[0x4000, 0, 0, 0, 0, 0, 0, 0] .z [(0x4000, 0x4100)] []))).map (fun t => t.out) =
      some [0x00, 0x41] := by decide
/-- V80: a zero high byte is not. -/
theorem test_putsp_zero_high_byte :
    (nextOf (step (at' 0xF024 0x3000 #v[0x4000, 0, 0, 0, 0, 0, 0, 0] .z [(0x4000, 0x0041)] []))).map (fun t => t.out) =
      some [0x41] := by decide
/-- E3, V81. -/
theorem test_halt :
    (nextOf (step (at' 0xF025 0x3000 regs0 .z [] []))).map (fun t => (t.run, t.pc, t.out)) =
      some (.halted, 0x3001, Config.haltMessage) := by rfl
/-- V83 at UNKNOWN_TRAP = fault. -/
theorem test_unknown_trap_faults :
    (nextOf (step (at' 0xF0FF 0x3000 regs0 .z [] []))).map (fun t => (t.run, t.pc)) =
      some (.faulted (.unknownTrap 0xFF), 0x3001) := by decide

/-! ### Invalid opcodes, fetch, the ended runs -/

/-- E5, V87. -/
theorem test_rti_faults :
    (nextOf (step (at' 0x8FFF 0x3000 regs0 .p [] []))).map (fun t => (t.run, t.pc, t.cond)) =
      some (.faulted (.invalidOpcode 8), 0x3001, .p) := by decide
/-- V88. -/
theorem test_reserved_faults :
    (nextOf (step (at' 0xDABC 0x3000 regs0 .z [] []))).map (fun t => (t.run, t.pc)) =
      some (.faulted (.invalidOpcode 13), 0x3001) := by decide
/-- V70: a fetch at 0xFE00 with a byte ready. -/
theorem test_fetch_polls :
    (nextOf (step { State.reset with pc := 0xFE00, inp := ⟨[.byte 0x61], .ended⟩ })).map
      (fun t => (t.run, t.pc, t.peek 0xFE02)) = some (.faulted (.invalidOpcode 8), 0xFE01, 0x61) := by decide
theorem test_no_step_when_halted :
    faultOf (step { State.reset with run := .halted }) = some .notEnabledHalted := by decide

/-! ### The loader (V90, V91, V92, V93) and the host's word -/

theorem test_loader_does_not_wrap : loadImage (some [0xFF, 0xFF, 0x12, 0x34, 0x56, 0x78]) [] = some [(0xFFFF, 0x1234)] := by
  decide
theorem test_loader_later_image_stands :
    loadImages [some [0x30, 0x00, 0x11, 0x11, 0x22, 0x22], some [0x30], some [0x30, 0x01, 0x33, 0x33, 0x77]] [] =
      ([(0x3000, 0x1111), (0x3001, 0x3333)], [true, false, true]) := by decide
theorem test_withFetchWord_runs_the_word :
    (nextOf (step (State.reset.withFetchWord 16 0x4802))).map (fun t => (t.reg 7, t.pc)) = some (0x3001, 0x3003) := by
  decide
theorem test_memory_write_of_zero_unlists : Memory.write [(3, 7), (5, 9)] 3 0 = [(5, 9)] := by decide

end Sys2Proof.Machine

/-! ### Witnesses: a state and operands that meet each statement's hypotheses -/

namespace Sys2Proof.Machine

/-- A memory with no zero word. -/
def fullMemory (n : Nat) : Memory := (List.range' 0 n).map fun k => (k, 1)

theorem read_map_range' (n a b : Nat) (h : a ≤ b) (hb : b < a + n) :
    Memory.read ((List.range' a n).map fun k => (k, (1 : Word))) b = 1 := by
  induction n generalizing a with
  | zero => omega
  | succ n ih =>
    rw [List.range'_succ, List.map_cons, Memory.read_cons]
    split_ifs with e
    · rfl
    · exact ih (a + 1) (by omega) (by omega)

/-- PUTS and PUTSP, the clause of the hang; the progress statement's second exception. -/
theorem witness_no_zero_word : ∀ a : Word, ({ State.reset with mem := fullMemory 65536 } : State).peek a ≠ 0x0000 := by
  intro a
  have h : Memory.read (fullMemory 65536) a.toNat = 1 := read_map_range' 65536 0 a.toNat (by omega) (by omega)
  change Memory.read (fullMemory 65536) a.toNat ≠ 0x0000
  rw [h]
  decide

/-- PUTS and PUTSP, the clause that completes: the empty string, and the longest one (k = 65535). -/
theorem witness_terminated_at_once : TerminatedAt State.reset (State.reset.reg 0) 0 :=
  ⟨by decide, rfl, fun j hj => absurd hj (Nat.not_lt_zero j)⟩
theorem witness_terminated_last :
    TerminatedAt { State.reset with mem := fullMemory 65535 } (State.reset.reg 0) 65535 := by
  refine ⟨by decide, ?_, fun j hj => ?_⟩
  · rw [show State.reset.reg 0 + BitVec.ofNat 16 65535 = 65535#16 by decide]
    have h : ∀ n a, a + n ≤ 65535 →
        Memory.read ((List.range' a n).map fun k => (k, (1 : Word))) 65535 = 0x0000 := by
      intro n
      induction n with
      | zero => intro a _; rfl
      | succ n ih =>
        intro a ha
        rw [List.range'_succ, List.map_cons, Memory.read_cons, if_neg (by omega)]
        exact ih (a + 1) (by omega)
    exact h 65535 0 (by omega)
  · have e : (State.reset.reg 0 + BitVec.ofNat 16 j).toNat = j := by
      rw [show State.reset.reg 0 = 0#16 by decide]
      simp
      omega
    have h : Memory.read (fullMemory 65535) (State.reset.reg 0 + BitVec.ofNat 16 j).toNat = 1 := by
      rw [e]; exact read_map_range' 65535 0 j (by omega) (by omega)
    change Memory.read (fullMemory 65535) (State.reset.reg 0 + BitVec.ofNat 16 j).toNat ≠ 0x0000
    rw [h]
    decide

/-- GETC, IN and the wait: a channel with a byte to come, queued or later, and one without. -/
theorem witness_byte_to_come : InChannel.byteToCome ⟨[.notReady, .byte 0x5A], .ended⟩ 0 = some 0x5A := rfl
theorem witness_later_byte_to_come :
    InChannel.byteToCome ⟨[.notReady], .endless 3 7⟩ 0 = some (Config.inputByte 7) := rfl
theorem witness_no_byte_to_come : InChannel.byteToCome ⟨[.notReady, .notReady], .ended⟩ 0 = none := rfl

/-- LDI polls at most once: the pointer read polls. -/
theorem witness_ldi_pointer_polls :
    ∃ t, exec (.ldi 1 0) { State.reset with pc := 0xFE00, inp := ⟨[.byte 0x41], .ended⟩ } = .next t ∧
      ({ State.reset with pc := 0xFE00, inp := ⟨[.byte 0x41], .ended⟩ } : State).pc + (0 : BitVec 9).signExtend 16 = 0xFE00 :=
  ⟨_, rfl, by decide⟩

/-- Unknown trap codes at both ends of the two ranges. -/
theorem witness_unknown_codes :
    ∀ code ∈ [0x00#8, 0x1F#8, 0x26#8, 0xFF#8], code.toNat < 0x20 ∨ 0x25 < code.toNat := by decide

/-- A row of the TRAP opcode that goes on. -/
theorem witness_trap_goes_on : isTrapRow .out = true ∧ ∃ t, exec .out State.reset = .next t := ⟨rfl, _, rfl⟩

/-- sext: the ends of the range of N. -/
theorem witness_sext_widths : (1 ≤ 1 ∧ 1 ≤ 16) ∧ (1 ≤ 16 ∧ 16 ≤ 16) := by decide

/-- MemRead: each clause's hypotheses. -/
theorem witness_poll_ready :
    InChannel.poll ({ State.reset with inp := ⟨[.byte 0xFF], .ended⟩ } : State).inp = (some 0xFF, ⟨[], .ended⟩) := rfl
theorem witness_poll_not_ready :
    InChannel.poll ({ State.reset with inp := ⟨[.notReady, .byte 1], .ended⟩ } : State).inp =
        (none, ⟨[.byte 1], .ended⟩) ∧
      InChannel.poll ⟨[], .ended⟩ = (none, ⟨[], .ended⟩) := ⟨rfl, rfl⟩
theorem witness_addresses_beside_kbsr : (0xFDFF : Word) ≠ 0xFE00 ∧ (0xFE01 : Word) ≠ 0xFE00 := by decide

/-- Two canonical memories with equal reads. -/
theorem witness_canonical_memories : Memory.wf [(0, 1), (65535, 2)] ∧ Memory.wf [(0, 1), (65535, 2)] ∧
    ∀ a : Word, Memory.read [(0, 1), (65535, 2)] a.toNat = Memory.read [(0, 1), (65535, 2)] a.toNat :=
  ⟨by decide, by decide, fun _ => rfl⟩

/-- Decode of encode: a well-formed instruction. -/
theorem witness_wellFormed : (Instr.ldr 7 6 0b100000).wellFormed = true := rfl

/-- A step that fetches away from 0xFE00, and one that fetches at it, with and without a byte. -/
theorem witness_running_away_from_kbsr : State.reset.run = .running ∧ State.reset.pc ≠ 0xFE00 := by decide
theorem witness_fetch_at_kbsr :
    ({ State.reset with pc := 0xFE00, inp := ⟨[.byte 0x61], .ended⟩ } : State).run = .running ∧
      ({ State.reset with pc := 0xFE00, inp := ⟨[.byte 0x61], .ended⟩ } : State).pc = 0xFE00 ∧
      InChannel.poll ({ State.reset with pc := 0xFE00, inp := ⟨[.byte 0x61], .ended⟩ } : State).inp =
        (some 0x61, ⟨[], .ended⟩) := by decide
theorem witness_fetch_at_kbsr_not_ready :
    ({ State.reset with pc := 0xFE00, inp := ⟨[.notReady], .ended⟩ } : State).run = .running ∧
      ({ State.reset with pc := 0xFE00, inp := ⟨[.notReady], .ended⟩ } : State).pc = 0xFE00 ∧
      InChannel.poll ({ State.reset with pc := 0xFE00, inp := ⟨[.notReady], .ended⟩ } : State).inp =
        (none, ⟨[], .ended⟩) := by decide

/-- No step in HALTED or FAULTED; ended runs. -/
theorem witness_ended :
    ({ State.reset with run := .halted } : State).run ≠ .running ∧
      ({ State.reset with run := .faulted (.invalidOpcode 8) } : State).run ≠ .running ∧
      Reaches { State.reset with run := .halted } { State.reset with run := .halted } :=
  ⟨by decide, by decide, .refl⟩

/-- A step that faults (R150), by each reason. -/
theorem witness_faulted_step :
    (∃ t, step (at' 0x8000 0x3000 regs0 .z [] []) = .next t ∧ t.run = .faulted (.invalidOpcode 8)) ∧
      ∃ t, step (at' 0xF026 0x3000 regs0 .z [] []) = .next t ∧ t.run = .faulted (.unknownTrap 0x26) :=
  ⟨⟨_, rfl, rfl⟩, ⟨_, rfl, rfl⟩⟩

/-- A store to the next instruction's address (R56): ST with offset 0, as in P5; and by STI and STR. -/
theorem witness_store_to_next_address :
    (∃ t, step (at' 0x3000 0x3001 regs0 .z [] []) = .next t ∧
      addressStored (.st 0 0) (at' 0x3000 0x3001 regs0 .z [] []).fetch.2 = [0x3002] ∧ t.pc = 0x3002 ∧
      decode ((at' 0x3000 0x3001 regs0 .z [] []).memRead 0x3001).1 = .st 0 0) ∧
    (∃ t, step (at' 0xB000 0x3001 regs0 .z [(0x3002, 0x3002)] []) = .next t ∧
      addressStored (.sti 0 0) (at' 0xB000 0x3001 regs0 .z [(0x3002, 0x3002)] []).fetch.2 = [0x3002] ∧ t.pc = 0x3002 ∧
      decode ((at' 0xB000 0x3001 regs0 .z [(0x3002, 0x3002)] []).memRead 0x3001).1 = .sti 0 0) ∧
    ∃ t, step (at' 0x7040 0x3001 #v[0, 0x3002, 0, 0, 0, 0, 0, 0] .z [] []) = .next t ∧
      addressStored (.str 0 1 0) (at' 0x7040 0x3001 #v[0, 0x3002, 0, 0, 0, 0, 0, 0] .z [] []).fetch.2 = [0x3002] ∧
      t.pc = 0x3002 ∧
      decode ((at' 0x7040 0x3001 #v[0, 0x3002, 0, 0, 0, 0, 0, 0] .z [] []).memRead 0x3001).1 = .str 0 1 0 :=
  ⟨⟨_, rfl, by decide, rfl, by decide⟩, ⟨_, rfl, by decide, rfl, by decide⟩, ⟨_, rfl, by decide, rfl, by decide⟩⟩

/-- The whole-machine rules: an instruction that answers a next state; a step whose instruction defines no register,
writes no pc, is no TRAP and reads no memory. -/
theorem witness_exec_next : (Instr.addReg 0 1 2).wellFormed = true ∧ ∃ t, exec (.addReg 0 1 2) State.reset = .next t :=
  ⟨rfl, _, rfl⟩
theorem witness_step_next :
    (∃ t, step (at' 0x3000 0x3001 regs0 .z [] []) = .next t) ∧
      decode (at' 0x3000 0x3001 regs0 .z [] []).fetch.1 = .st 0 0 ∧ definedReg (.st 0 0) = none ∧
      mayWritePc (.st 0 0) = false ∧ isTrapRow (.st 0 0) = false ∧
      0xFE00 ∉ addressesRead (.st 0 0) (at' 0x3000 0x3001 regs0 .z [] []).fetch.2 :=
  ⟨⟨_, rfl⟩, by decide, rfl, rfl, rfl, by decide⟩

/-- The invariant, at a state with memory listed whose step has a next state. -/
theorem witness_inv : (at' 0x3000 0x3001 regs0 .z [(5, 5)] []).Inv ∧
    ∃ t, step (at' 0x3000 0x3001 regs0 .z [(5, 5)] []) = .next t := by
  refine ⟨?_, _, rfl⟩
  unfold State.Inv
  decide

/-- The loader: a stream too short, one with a word, one truncated at 0xFFFF. -/
theorem witness_loader : ([0x30] : List Byte).length < 2 ∧ ([0xFF, 0xFF, 0x12, 0x34, 0x56, 0x78] : List Byte)[0]? = some 0xFF ∧
    ([0xFF, 0xFF, 0x12, 0x34, 0x56, 0x78] : List Byte)[1]? = some 0xFF := by decide
theorem witness_load_failure_and_success : loadImage none [] = none ∧ ∃ m, loadImage (some [0x30, 0x00]) [] = some m :=
  ⟨rfl, _, rfl⟩

/-- Boot at the default start; a loaded image read back up to the top of memory. -/
theorem witness_boot : (0x3000 : Word) ≠ 0xFE00 := by decide
theorem witness_loaded_words :
    (0xFFFE : Word).toNat + ([0x1234, 0xABCD] : List Word).length ≤ 65536 ∧
      ([0x1234, 0xABCD] : List Word)[1]? = some 0xABCD ∧ (0xFFFE : Word) + BitVec.ofNat 16 1 ≠ 0xFE00 ∧
      ∃ m, loadImage (some (([0xFFFE, 0x1234, 0xABCD] : List Word).flatMap fun v => [v.extractLsb' 8 8, v.extractLsb' 0 8]))
        State.reset.mem = some m := by
  exact ⟨by decide, by decide, by decide, _, rfl⟩

end Sys2Proof.Machine
end

section
/-! PROOFS of the family 00_scope.md: sign and zero extension (R13), read bit by bit. -/

namespace Sys2Proof.Machine

/-! ### The bits of an extended word -/

/-- The mask of the pseudocode: `0xFFFF << N`, a natural number cut to a word, is the bits from N up to 15. -/
theorem getLsbD_onesShiftedLeft (n k : Nat) :
    ((0xFFFF <<< n : Nat) : Word).getLsbD k = (decide (k < 16) && !decide (k < n)) := by
  rw [BitVec.natCast_eq_ofNat, BitVec.getLsbD_ofNat, Nat.testBit_shiftLeft, show 0xFFFF = 2 ^ 16 - 1 from rfl,
    Nat.testBit_two_pow_sub_one]
  by_cases hk : k < 16
  · simp only [hk, show k - n < 16 by omega, ge_iff_le, ← Nat.not_lt, decide_not, decide_true, Bool.and_true]
  · simp [hk]

@[simp] theorem getLsbD_zextLow (n : Nat) (v : Word) (k : Nat) :
    (zextLow n v).getLsbD k = (decide (k < n) && v.getLsbD k) := by
  by_cases hk : k < 16
  · simp [zextLow, hk]
  · simp [zextLow, hk, BitVec.getLsbD_of_ge v k (by omega)]

/-- Below bit N the word's own bits; from N up, its bit N-1. -/
theorem getLsbD_sextLow {n : Nat} (hn : 1 ≤ n) (v : Word) (k : Nat) :
    (sextLow n v).getLsbD k = (decide (k < 16) && if k < n then v.getLsbD k else v.getLsbD (n - 1)) := by
  have hsign : (v.extractLsb' 0 n).msb = v.getLsbD (n - 1) := by
    simp [BitVec.msb_eq_getLsbD_last, show n - 1 < n by omega]
  rw [sextLow, sext, BitVec.getLsbD_signExtend, hsign]
  by_cases hk : k < n <;> simp [hk]

/-! ### What the two extensions keep -/

theorem sext_extractLsb' (n : Nat) (v : Word) : sext (v.extractLsb' 0 n) = sextLow n v := rfl

@[simp] theorem sextLow_sixteen (v : Word) : sextLow 16 v = v := by
  rw [sextLow, sext, BitVec.extractLsb'_eq_self, BitVec.signExtend_eq]

theorem zext8_extractLsb' (v : Word) : zext8 (v.extractLsb' 0 8) = zextLow 8 v := rfl

theorem sextLow_eq_pseudocode {n : Nat} (hn : 1 ≤ n) (v : Word) :
    sextLow n v =
      if v.getLsbD (n - 1) then (zextLow n v ||| (0xFFFF <<< n)) &&& 0xFFFF else zextLow n v := by
  rw [show (0xFFFF : Word) = BitVec.allOnes 16 from rfl, BitVec.and_allOnes]
  apply BitVec.eq_of_getLsbD_eq
  intro k hk
  rw [getLsbD_sextLow hn]
  by_cases hsign : v.getLsbD (n - 1) = true
  case pos =>
    rw [if_pos hsign, BitVec.getLsbD_or, getLsbD_zextLow, getLsbD_onesShiftedLeft]
    by_cases hkn : k < n <;> simp [hk, hkn, hsign]
  case neg =>
    rw [if_neg hsign, getLsbD_zextLow]
    by_cases hkn : k < n <;> simp [hk, hkn, hsign]

/-- `sext_N` leaves the field it extends as it was, bit N-1 included; this is why a second `sext_N` changes nothing. -/
theorem extractLsb'_sextLow {n : Nat} (hn : 1 ≤ n) (hn16 : n ≤ 16) (v : Word) :
    (sextLow n v).extractLsb' 0 n = v.extractLsb' 0 n := by
  apply BitVec.eq_of_getLsbD_eq
  intro k hk
  rw [BitVec.getLsbD_extractLsb', BitVec.getLsbD_extractLsb', Nat.zero_add, getLsbD_sextLow hn]
  simp [hk, show k < 16 by omega]

theorem sextLow_idempotent {n : Nat} (hn : 1 ≤ n) (hn16 : n ≤ 16) (v : Word) :
    sextLow n (sextLow n v) = sextLow n v := by
  rw [← sext_extractLsb', extractLsb'_sextLow hn hn16, sext_extractLsb']

/-- Settles O28, bit by bit: the words of R13's pseudocode agree at each bit below 16, and `sext_N` keeps the field it
extends. -/
theorem sextFollowsItsPseudocode : Obligations.SextFollowsItsPseudocode := by
  refine ⟨?pseudocode, sext_extractLsb', sextLow_sixteen, ?idempotent, getLsbD_zextLow, ?byte⟩
  case pseudocode => exact fun n v hn _ => sextLow_eq_pseudocode hn v
  case idempotent => exact fun n v hn hn16 => sextLow_idempotent hn hn16 v
  case byte =>
    rintro v _ rfl
    exact zext8_extractLsb' v

end Sys2Proof.Machine
end

section
/-! PROOFS of the family 10_state.md. `ExecFrame` says once what an instruction that answers a next state can do to each
part of the state; the rules about COND, the registers, pc, the run state, the channels and the form of memory are read
off it, with the frame of the fetch. -/

namespace Sys2Proof.Machine

/-! ### Decoded instructions are well-formed -/

theorem decodeTrap_wellFormed (code : BitVec 8) : (decodeTrap code).wellFormed = true := by
  unfold decodeTrap
  split_ifs with h0 h1 h2 h3 h4 h5
  iterate 6 rfl
  simpa [Instr.wellFormed, namedTrapCodes] using ⟨h0, h1, h2, h3, h4, h5⟩

theorem decode_wellFormed (w : Word) : (decode w).wellFormed = true := by
  unfold decode
  split
  case h_2 | h_5 | h_6 => split <;> rfl
  case h_16 => exact decodeTrap_wellFormed _
  all_goals rfl

/-! ### What the reads of an instruction do -/

/-- `r` is `s` after the memory reads of one instruction (R41): registers, pc, COND, the run state and the output are kept,
the channel was polled at most once, and the form of memory is kept. -/
structure ReadEffect (s r : State) : Prop where
  reg : ∀ q : Reg, r.reg q = s.reg q
  pc : r.pc = s.pc
  cond : r.cond = s.cond
  run : r.run = s.run
  out : r.out = s.out
  inp : ∃ j ≤ 1, InChannel.Took j s.inp r.inp
  inv : s.Inv → r.Inv

theorem InChannel.took_poll (c : InChannel) : ∃ j ≤ 1, InChannel.Took j c (InChannel.poll c).2 := by
  rcases InChannel.poll_eq c with ⟨b, rest, hpoll, -, htook⟩ | ⟨rest, hpoll, htook⟩
  · exact ⟨1, le_rfl, by rwa [hpoll]⟩
  · exact ⟨0, Nat.zero_le 1, by rwa [hpoll]⟩

theorem readEffect_refl (s : State) : ReadEffect s s where
  reg _ := rfl
  pc := rfl
  cond := rfl
  run := rfl
  out := rfl
  inp := ⟨0, Nat.zero_le 1, InChannel.took_zero_refl _⟩
  inv := id

theorem readEffect_intercept (s : State) (a : Word) : ReadEffect s (s.intercept a) where
  reg := s.reg_intercept a
  pc := s.intercept_pc a
  cond := s.intercept_cond a
  run := s.intercept_run a
  out := s.intercept_out a
  inp := by
    rw [State.intercept_inp]
    split
    · exact InChannel.took_poll _
    · exact ⟨0, Nat.zero_le 1, InChannel.took_zero_refl _⟩
  inv := s.wf_intercept a

/-- The word that a polling read answers is not itself KBSR_ADDR, so a read through it polls no second time (R101). -/
theorem State.intercept_through_pointer (s : State) (a : Word) :
    (s.intercept a).intercept ((s.intercept a).peek a) = s.intercept a ∨ s.intercept a = s := by
  by_cases ha : a = Config.kbsrAddr
  · subst ha
    refine .inl (State.intercept_of_ne _ ?_)
    rw [State.intercept_kbsr]
    rcases s.peek_pollKeyboard_kbsr with h | h <;> rw [h] <;> decide
  · exact .inr (s.intercept_of_ne ha)

theorem readEffect_through_pointer (s : State) (a : Word) :
    ReadEffect s ((s.intercept a).intercept ((s.intercept a).peek a)) := by
  rcases s.intercept_through_pointer a with h | h
  · rw [h]
    exact readEffect_intercept s a
  · rw [h]
    exact readEffect_intercept s _

/-! ### What an instruction that answers can do -/

/-- The run state after an instruction that answers (R24, R151): only HALT, the invalid opcodes and the generic TRAP row
set it. -/
def runAfter : Instr → RunState → RunState
  | .halt, _ => .halted
  | .rti, _ => .faulted (.invalidOpcode 8)
  | .res, _ => .faulted (.invalidOpcode 13)
  | .trap code, _ => .faulted (.unknownTrap code)
  | _, run => run

/-- What instruction `i` can do from `s` when it answers `t`, part by part of the state. An ill-formed `i` is a TRAP row of
one of the six codes (log 19), which does that routine's register and run state writes. -/
structure ExecFrame (i : Instr) (s t : State) : Prop where
  cond_defined : ∀ dr, definedReg i = some dr → t.cond = condOf (t.reg dr)
  cond_kept : definedReg i = none → t.cond = s.cond
  regs : i.wellFormed = true → RegsKept s t (regsWritten i)
  pc : mayWritePc i = false → t.pc = s.pc
  run : i.wellFormed = true → t.run = runAfter i s.run
  out_appended : ∃ bs, t.out = s.out ++ bs
  out_kept : isTrapRow i = false → t.out = s.out
  inp : ∃ j ≤ 1, InChannel.Took j s.inp t.inp
  inv : s.Inv → t.Inv

theorem regsWritten_of_definedReg {i : Instr} {dr : Reg} (h : definedReg i = some dr) : regsWritten i = [dr] := by
  cases i <;> simp_all [definedReg, regsWritten]

theorem runAfter_of_definedReg {i : Instr} {dr : Reg} (h : definedReg i = some dr) (run : RunState) :
    runAfter i run = run := by
  cases i <;> simp_all [definedReg, runAfter]

theorem execFrame_define {i : Instr} {s r : State} {dr : Reg} (v : Word) (hi : definedReg i = some dr)
    (hr : ReadEffect s r) : ExecFrame i s (r.define dr v) where
  cond_defined dr' h' := by
    obtain rfl : dr = dr' := Option.some.inj (hi.symm.trans h')
    simp
  cond_kept h := by simp [hi] at h
  regs _ q hq := by
    rw [regsWritten_of_definedReg hi, List.mem_singleton] at hq
    rw [State.reg_define, if_neg hq, hr.reg]
  pc _ := hr.pc
  run _ := by rw [runAfter_of_definedReg hi, State.define_run, hr.run]
  out_appended := ⟨[], by rw [State.define_out, hr.out, List.append_nil]⟩
  out_kept _ := hr.out
  inp := hr.inp
  inv := hr.inv

theorem execFrame_memWrite {i : Instr} {s r : State} (a v : Word) (hi : definedReg i = none)
    (hrun : runAfter i s.run = s.run) (hr : ReadEffect s r) : ExecFrame i s (r.memWrite a v) where
  cond_defined dr h := by simp [hi] at h
  cond_kept _ := hr.cond
  regs _ q _ := hr.reg q
  pc _ := hr.pc
  run _ := by rw [hrun, State.memWrite_run, hr.run]
  out_appended := ⟨[], by rw [State.memWrite_out, hr.out, List.append_nil]⟩
  out_kept _ := hr.out
  inp := hr.inp
  inv h := r.wf_poke a v (hr.inv h)

/-- An instruction that writes neither COND, memory nor a channel stays in its frame when its registers, pc and run state
do. -/
theorem execFrame_of_cond_mem_channels_kept {i : Instr} {s t : State} (hi : definedReg i = none)
    (hcond : t.cond = s.cond) (hmem : t.mem = s.mem) (hchannels : ChannelsKept s t)
    (hregs : RegsKept s t (regsWritten i)) (hpc : mayWritePc i = false → t.pc = s.pc)
    (hrun : t.run = runAfter i s.run) : ExecFrame i s t where
  cond_defined dr h := by simp [hi] at h
  cond_kept _ := hcond
  regs _ := hregs
  pc := hpc
  run _ := hrun
  out_appended := ⟨[], by rw [hchannels.2, List.append_nil]⟩
  out_kept _ := hchannels.2
  inp := ⟨0, Nat.zero_le 1, by rw [hchannels.1]; exact InChannel.took_zero_refl _⟩
  inv h := by rwa [State.Inv, hmem]

theorem execFrame_setPc {i : Instr} {s : State} (a : Word) (hi : definedReg i = none) (hpc : mayWritePc i = true)
    (hrun : runAfter i s.run = s.run) : ExecFrame i s (s.setPc a) :=
  execFrame_of_cond_mem_channels_kept hi rfl rfl ⟨rfl, rfl⟩ (fun _ _ => rfl) (fun h => by simp [hpc] at h) hrun.symm

/-- JSR and JSRR: the jump, from the state whose R7 holds the return address. -/
theorem execFrame_link {i : Instr} {s : State} (a : Word) (hi : definedReg i = none) (hpc : mayWritePc i = true)
    (hregs : regsWritten i = [7]) (hrun : runAfter i s.run = s.run) :
    ExecFrame i s ((s.setReg 7 s.pc).setPc a) := by
  refine execFrame_of_cond_mem_channels_kept hi rfl rfl ⟨rfl, rfl⟩ (fun q hq => ?_) (fun h => by simp [hpc] at h)
    hrun.symm
  rw [hregs, List.mem_singleton] at hq
  rw [State.reg_setPc, State.reg_setReg, if_neg hq]

theorem execFrame_raise {i : Instr} {s : State} {reason : FaultReason} (hi : definedReg i = none)
    (hrun : runAfter i s.run = .faulted reason) : ExecFrame i s (s.raise reason) :=
  execFrame_of_cond_mem_channels_kept hi rfl rfl ⟨rfl, rfl⟩ (fun _ _ => rfl) (fun _ => rfl) hrun.symm

theorem definedReg_of_isTrapRow {i : Instr} (h : isTrapRow i = true) : definedReg i = none := by
  cases i <;> simp_all [definedReg, isTrapRow]

/-- The TRAP rows: what no routine writes is `RoutineEffect`; which registers and which run state differ from row to row. -/
theorem execFrame_routine {i : Instr} {s t : State} (hi : isTrapRow i = true) (ht : RoutineEffect s.trapLink t)
    (hregs : i.wellFormed = true → RegsKept s t (regsWritten i))
    (hrun : i.wellFormed = true → t.run = runAfter i s.run) : ExecFrame i s t := by
  obtain ⟨hmem, hcond, hpc, hinp, hout, -⟩ := ht
  exact
    { cond_defined := fun dr h => by simp [definedReg_of_isTrapRow hi] at h
      cond_kept := fun _ => hcond
      regs := hregs
      pc := fun _ => hpc
      run := hrun
      out_appended := hout
      out_kept := fun h => by simp [hi] at h
      inp := hinp
      inv := fun h => by rwa [State.Inv, hmem] }

/-! ### The registers of the TRAP rows (R121) -/

theorem regsKept_trapLink_exact (s : State) :
    RegsKept s s.trapLink (if Config.trapWritesR7 then [7] else []) := by
  intro q hq
  rw [State.reg_trapLink, if_neg]
  rintro ⟨rfl, hlink⟩
  simp [hlink] at hq

/-- A byte put into R0 after the link (GETC, IN). -/
theorem regsKept_of_reg_trapLink {s t : State} (ht : ∀ q : Reg, q ≠ 0 → t.reg q = s.trapLink.reg q) :
    RegsKept s t (if Config.trapWritesR7 then [0, 7] else [0]) := by
  intro q hq
  obtain ⟨h0, hlink⟩ : q ≠ 0 ∧ q ∉ (if Config.trapWritesR7 then [7] else [] : List Reg) := by
    split at hq <;> simp_all
  rw [ht q h0, regsKept_trapLink_exact s q hlink]

theorem RoutineEffect.reg {s t : State} (h : RoutineEffect s t) : ∀ q : Reg, q ≠ 0 → t.reg q = s.reg q := by
  obtain ⟨-, -, -, -, -, hreg⟩ := h
  exact hreg

/-! ### The rows of the TRAP opcode -/

theorem execFrame_getc {s t : State} (h : exec .getc s = .next t) : ExecFrame .getc s t := by
  have heff : RoutineEffect s.trapLink t := getcRoutine_effect h
  rcases getcRoutine_cases s.trapLink with ⟨-, hr⟩ | ⟨c, rest, -, -, hr⟩
  · exact absurd (hr.symm.trans h) (by simp)
  · obtain rfl := Host.Outcome.next.inj (hr.symm.trans h)
    exact execFrame_routine rfl heff (fun _ => regsKept_of_reg_trapLink heff.reg) fun _ => rfl

theorem execFrame_in {s t : State} (h : exec .in_ s = .next t) : ExecFrame .in_ s t := by
  have heff : RoutineEffect s.trapLink t := inRoutine_effect h
  rcases inRoutine_cases s.trapLink with ⟨-, hr⟩ | ⟨c, rest, -, -, hr⟩
  · exact absurd (hr.symm.trans h) (by simp)
  · obtain rfl := Host.Outcome.next.inj (hr.symm.trans h)
    exact execFrame_routine rfl heff (fun _ => regsKept_of_reg_trapLink heff.reg) fun _ => rfl

theorem execFrame_puts {s t : State} (h : exec .puts s = .next t) : ExecFrame .puts s t := by
  rcases putsRoutine_cases s.trapLink with ⟨-, hr⟩ | ⟨ws, -, hr⟩
  · exact absurd (hr.symm.trans h) (by simp)
  · obtain rfl := Host.Outcome.next.inj (hr.symm.trans h)
    exact execFrame_routine rfl (putsRoutine_effect h) (fun _ => regsKept_trapLink_exact s) fun _ => rfl

theorem execFrame_putsp {s t : State} (h : exec .putsp s = .next t) : ExecFrame .putsp s t := by
  rcases putspRoutine_cases s.trapLink with ⟨-, hr⟩ | ⟨ws, -, hr⟩
  · exact absurd (hr.symm.trans h) (by simp)
  · obtain rfl := Host.Outcome.next.inj (hr.symm.trans h)
    exact execFrame_routine rfl (putspRoutine_effect h) (fun _ => regsKept_trapLink_exact s) fun _ => rfl

theorem execFrame_trap {code : BitVec 8} {s t : State} (h : exec (.trap code) s = .next t) :
    ExecFrame (.trap code) s t := by
  refine execFrame_routine rfl (execTrap_effect h) (fun hwf => ?_) fun hwf => ?_ <;>
    obtain rfl := Host.Outcome.next.inj ((exec_trap s hwf).symm.trans h)
  · exact regsKept_trapLink_exact s
  · rfl

/-- Every instruction that answers a next state stays within its frame. -/
theorem exec_frame {i : Instr} {s t : State} (h : exec i s = .next t) : ExecFrame i s t := by
  cases i with
  | addReg | addImm | andReg | andImm | not | lea =>
    obtain rfl := Host.Outcome.next.inj h
    exact execFrame_define _ rfl (readEffect_refl s)
  | ld | ldr =>
    obtain rfl := Host.Outcome.next.inj h
    exact execFrame_define _ rfl (readEffect_intercept s _)
  | ldi =>
    obtain rfl := Host.Outcome.next.inj h
    exact execFrame_define _ rfl (readEffect_through_pointer s _)
  | st | str =>
    obtain rfl := Host.Outcome.next.inj h
    exact execFrame_memWrite _ _ rfl rfl (readEffect_refl s)
  | sti =>
    obtain rfl := Host.Outcome.next.inj h
    exact execFrame_memWrite _ _ rfl rfl (readEffect_intercept s _)
  | br | jmp =>
    obtain rfl := Host.Outcome.next.inj h
    exact execFrame_setPc _ rfl rfl rfl
  | jsr =>
    obtain rfl := Host.Outcome.next.inj h
    exact execFrame_link _ rfl rfl rfl rfl
  | rti | res =>
    obtain rfl := Host.Outcome.next.inj h
    exact execFrame_raise rfl rfl
  | out =>
    obtain rfl := Host.Outcome.next.inj h
    exact execFrame_routine rfl (outRoutine_effect h) (fun _ => regsKept_trapLink_exact s) fun _ => rfl
  | halt =>
    obtain rfl := Host.Outcome.next.inj h
    exact execFrame_routine rfl (haltRoutine_effect h) (fun _ => regsKept_trapLink_exact s) fun _ => rfl
  | getc => exact execFrame_getc h
  | puts => exact execFrame_puts h
  | in_ => exact execFrame_in h
  | putsp => exact execFrame_putsp h
  | trap code => exact execFrame_trap h
  | jsrr base =>
    obtain rfl := Host.Outcome.next.inj ((exec_jsrr s base).symm.trans h)
    exact execFrame_link _ rfl rfl rfl rfl

/-! ### The whole step: the fetch, then the instruction -/

theorem State.fetch_pc (s : State) : s.fetch.2.pc = s.pc + 1 := rfl
theorem State.fetch_cond (s : State) : s.fetch.2.cond = s.cond := s.intercept_cond s.pc
theorem State.fetch_run (s : State) : s.fetch.2.run = s.run := s.intercept_run s.pc
theorem State.fetch_out (s : State) : s.fetch.2.out = s.out := s.intercept_out s.pc
theorem State.reg_fetch (s : State) (q : Reg) : s.fetch.2.reg q = s.reg q := s.reg_intercept s.pc q

/-- Settles O53: the fetch and then the instruction keep the canonical form. -/
theorem stepKeepsMemoryCanonical : Obligations.StepKeepsMemoryCanonical := by
  intro s t hs h
  obtain ⟨-, hexec⟩ := step_next h
  exact (exec_frame hexec).inv (s.wf_fetch hs)

/-- Settles O43: the frame's two clauses on COND, and the fetch keeps it. -/
theorem condIsWrittenByExactlySevenInstructions : Obligations.CondIsWrittenByExactlySevenInstructions := by
  refine ⟨fun i s t h => ?_, fun s t h hi => ?_⟩
  · split
    next dr hdr => exact (exec_frame h).cond_defined dr hdr
    next hnone => exact (exec_frame h).cond_kept hnone
  · obtain ⟨-, hexec⟩ := step_next h
    rw [(exec_frame hexec).cond_kept hi, State.fetch_cond]

/-- Settles O44: a fetched word decodes to a well-formed instruction, so the frame's register clause covers the step. -/
theorem registersHaveOnlyTheListedWriters : Obligations.RegistersHaveOnlyTheListedWriters := by
  refine ⟨fun i s t hwf h => (exec_frame h).regs hwf, fun s t h q hq => ?_⟩
  obtain ⟨-, hexec⟩ := step_next h
  rw [(exec_frame hexec).regs (decode_wellFormed _) q hq, State.reg_fetch]

/-- Settles O45: the fetch increments pc, and the instruction keeps it. -/
theorem pcHasOnlyTheListedWriters : Obligations.PcHasOnlyTheListedWriters := by
  intro s t h hi
  obtain ⟨-, hexec⟩ := step_next h
  rw [(exec_frame hexec).pc hi, State.fetch_pc]

theorem runAfter_running_eq_halted_iff (i : Instr) : runAfter i .running = .halted ↔ i = .halt := by
  cases i <;> simp [runAfter]

theorem runAfter_running_eq_faulted_iff (i : Instr) (reason : FaultReason) :
    runAfter i .running = .faulted reason ↔
      (i = .rti ∧ reason = .invalidOpcode 8) ∨ (i = .res ∧ reason = .invalidOpcode 13) ∨
        ∃ code, i = .trap code ∧ reason = .unknownTrap code := by
  cases i <;> simp [runAfter, eq_comm]

/-- Settles O47: the run state after the step is `runAfter` of RUNNING. -/
theorem runStateChangesOnlyByHaltAndFaults : Obligations.RunStateChangesOnlyByHaltAndFaults := by
  intro s t h
  obtain ⟨hrun, hexec⟩ := step_next h
  have hafter : t.run = runAfter (decode s.fetch.1) .running := by
    rw [(exec_frame hexec).run (decode_wellFormed _), State.fetch_run, hrun]
  rw [hafter]
  exact ⟨hrun, runAfter_running_eq_halted_iff _, runAfter_running_eq_faulted_iff _⟩

/-- Settles O48: the frame's two clauses on the output, and the fetch keeps it. -/
theorem outputIsAppendedOnlyByTraps : Obligations.OutputIsAppendedOnlyByTraps := by
  intro s t h
  obtain ⟨-, hexec⟩ := step_next h
  rw [← s.fetch_out]
  exact ⟨(exec_frame hexec).out_appended, (exec_frame hexec).out_kept⟩

/-- Settles O52, by induction on the run: it cannot take its first step. -/
theorem endedRunsStayAsTheyAre : Obligations.EndedRunsStayAsTheyAre := by
  intro s t hs hst
  induction hst with
  | refl => rfl
  | step _ hstep ih =>
    subst ih
    exact absurd (step_next hstep).1 hs

/-! ### Instructions that do not see the input channel -/

@[simp] theorem State.pcRel_setInp (s : State) (c : InChannel) {n : Nat} (off : BitVec n) :
    (s.setInp c).pcRel off = s.pcRel off := rfl

@[simp] theorem State.baseOffset_setInp (s : State) (c : InChannel) (base : Reg) (off : BitVec 6) :
    (s.setInp c).baseOffset base off = s.baseOffset base off := rfl

/-- A read beside KBSR_ADDR has no device effect, so the channel goes along (R43). -/
theorem State.intercept_setInp (s : State) (c : InChannel) {a : Word} (ha : a ≠ Config.kbsrAddr) :
    (s.setInp c).intercept a = (s.intercept a).setInp c := by
  rw [State.intercept_of_ne _ ha, State.intercept_of_ne _ ha]

theorem State.fetch_setInp (s : State) (c : InChannel) (hpc : s.pc ≠ Config.kbsrAddr) :
    (s.setInp c).fetch = (s.fetch.1, s.fetch.2.setInp c) := by
  rw [State.fetch_of_ne s hpc, State.fetch_of_ne _ (by simpa using hpc)]
  rfl

theorem putsRoutine_setInp {s t : State} (c : InChannel) (h : putsRoutine s = .next t) :
    putsRoutine (s.setInp c) = .next (t.setInp c) := by
  rcases putsRoutine_cases s with ⟨-, hr⟩ | ⟨ws, hws, hr⟩
  · exact absurd (hr.symm.trans h) (by simp)
  · obtain rfl := Host.Outcome.next.inj (hr.symm.trans h)
    simp only [putsRoutine, State.reg_setInp, State.stringAt_congr (s.peek_setInp c), hws]
    rfl

theorem putspRoutine_setInp {s t : State} (c : InChannel) (h : putspRoutine s = .next t) :
    putspRoutine (s.setInp c) = .next (t.setInp c) := by
  rcases putspRoutine_cases s with ⟨-, hr⟩ | ⟨ws, hws, hr⟩
  · exact absurd (hr.symm.trans h) (by simp)
  · obtain rfl := Host.Outcome.next.inj (hr.symm.trans h)
    simp only [putspRoutine, State.reg_setInp, State.stringAt_congr (s.peek_setInp c), hws]
    rfl

/-- R35 in the execute phase: without a poll, GETC or IN the channel goes along unseen. -/
theorem exec_setInp {i : Instr} {s t : State} (c : InChannel) (hwf : i.wellFormed = true)
    (hread : Config.kbsrAddr ∉ addressesRead i s) (hgetc : i ≠ .getc) (hin : i ≠ .in_) (h : exec i s = .next t) :
    exec i (s.setInp c) = .next (t.setInp c) := by
  cases i with
  | getc => exact absurd rfl hgetc
  | in_ => exact absurd rfl hin
  | ld dr off =>
    have ha : s.pcRel off ≠ Config.kbsrAddr := by simpa [addressesRead, eq_comm] using hread
    obtain rfl := Host.Outcome.next.inj h
    rw [exec_ld, State.pcRel_setInp, s.intercept_setInp c ha]
    rfl
  | ldr dr base off =>
    have ha : s.baseOffset base off ≠ Config.kbsrAddr := by simpa [addressesRead, eq_comm] using hread
    obtain rfl := Host.Outcome.next.inj h
    rw [exec_ldr, State.baseOffset_setInp, s.intercept_setInp c ha]
    rfl
  | ldi dr off =>
    obtain ⟨hptr, hdata⟩ : s.pcRel off ≠ Config.kbsrAddr ∧
        (s.intercept (s.pcRel off)).peek (s.pcRel off) ≠ Config.kbsrAddr := by
      simpa [addressesRead, eq_comm] using hread
    obtain rfl := Host.Outcome.next.inj h
    simp only [exec_ldi, State.memRead_fst, State.memRead_snd, State.pcRel_setInp, State.intercept_setInp _ c hptr,
      State.peek_setInp, State.intercept_setInp _ c hdata]
    rfl
  | sti sr off =>
    have ha : s.pcRel off ≠ Config.kbsrAddr := by simpa [addressesRead, eq_comm] using hread
    obtain rfl := Host.Outcome.next.inj h
    simp only [exec_sti, State.memRead_fst, State.memRead_snd, State.pcRel_setInp, s.intercept_setInp c ha]
    rfl
  | puts => exact putsRoutine_setInp c h
  | putsp => exact putspRoutine_setInp c h
  | jsrr base =>
    obtain rfl := Host.Outcome.next.inj ((exec_jsrr s base).symm.trans h)
    exact exec_jsrr _ base
  | trap code =>
    obtain rfl := Host.Outcome.next.inj ((exec_trap s hwf).symm.trans h)
    exact exec_trap _ hwf
  | br | addReg | addImm | st | jsr | andReg | andImm | str | rti | not | jmp | res | lea | out | halt =>
    obtain rfl := Host.Outcome.next.inj h
    rfl

/-- An instruction that does not see the channel leaves it: with the channel it already has, it ends in the same state. -/
theorem exec_inp_kept {i : Instr} {s t : State} (hwf : i.wellFormed = true)
    (hread : Config.kbsrAddr ∉ addressesRead i s) (hgetc : i ≠ .getc) (hin : i ≠ .in_) (h : exec i s = .next t) :
    t.inp = s.inp := by
  have hself : exec i s = .next (t.setInp s.inp) := exec_setInp s.inp hwf hread hgetc hin h
  have ht : t = t.setInp s.inp := Host.Outcome.next.inj (h.symm.trans hself)
  rw [ht, State.setInp_inp]

/-- Settles O50: the fetch beside KBSR_ADDR and then the instruction carry the other channel along. -/
theorem inputIsUnobservedWithoutPollGetcOrIn : Obligations.InputIsUnobservedWithoutPollGetcOrIn := by
  intro s t c hpc hread hgetc hin h
  obtain ⟨hrun, hexec⟩ := step_next h
  rw [step_running (s := s.setInp c) hrun, s.fetch_setInp c hpc]
  exact exec_setInp c (decode_wellFormed _) hread hgetc hin hexec

/-! ### The input channel over a whole step -/

/-- A fetch that polls reads 0x8000 or 0x0000 (R57): RTI, or a BR that requests no flag. -/
theorem decode_fetch_of_polls {s : State} (hpc : s.pc = Config.kbsrAddr) :
    decode s.fetch.1 = .rti ∨ decode s.fetch.1 = .br false false false 0 := by
  rw [State.fetch_fst, hpc, State.intercept_kbsr]
  rcases s.peek_pollKeyboard_kbsr with h | h
  · exact .inl (by rw [h]; decide)
  · exact .inr (by rw [h]; decide)

/-- After a fetch that polls, the instruction leaves the channel as the poll left it. -/
theorem step_inp_of_fetch_polls {s t : State} (hpc : s.pc = Config.kbsrAddr) (h : step s = .next t) :
    t.inp = (InChannel.poll s.inp).2 := by
  obtain ⟨-, hexec⟩ := step_next h
  have hfetch : s.fetch.2.inp = (InChannel.poll s.inp).2 := by
    rw [State.fetch_snd, State.setPc_inp, State.intercept_inp, if_pos hpc]
  rw [← hfetch]
  rcases decode_fetch_of_polls hpc with hi | hi <;> rw [hi] at hexec <;>
    exact exec_inp_kept rfl (by simp [addressesRead]) (by simp) (by simp) hexec

theorem State.fetch_inp_of_ne (s : State) (hpc : s.pc ≠ Config.kbsrAddr) : s.fetch.2.inp = s.inp := by
  rw [s.fetch_of_ne hpc, State.setPc_inp]

/-- Settles O49: the fetch polls and then the instruction leaves the channel, or the fetch leaves it and the instruction
takes at most one byte. -/
theorem inputIsTakenOnlyInOrderByPollsGetcAndIn : Obligations.InputIsTakenOnlyInOrderByPollsGetcAndIn := by
  intro s t h
  obtain ⟨-, hexec⟩ := step_next h
  refine ⟨?_, fun hpc hread hgetc hin => ?_⟩
  · by_cases hpc : s.pc = Config.kbsrAddr
    · rw [step_inp_of_fetch_polls hpc h]
      exact InChannel.took_poll _
    · rw [← s.fetch_inp_of_ne hpc]
      exact (exec_frame hexec).inp
  · rw [exec_inp_kept (decode_wellFormed _) hread hgetc hin hexec]
    exact s.fetch_inp_of_ne hpc

/-! ### `In.wait()` -/

theorem wait_ended_eq_none_iff (events : List InEvent) :
    InChannel.wait ⟨events, .ended⟩ = none ↔ ∀ b, .byte b ∉ events := by
  rw [InChannel.wait]
  induction events with
  | nil => simp [waitAmong]
  | cons e events ih =>
    cases e with
    | byte b => exact iff_of_false (by simp [waitAmong]) fun h => h b (by simp)
    | notReady => simpa [waitAmong] using ih

theorem wait_endless_ne_none (events : List InEvent) (polls bytes : Nat) :
    InChannel.wait ⟨events, .endless polls bytes⟩ ≠ none := by
  rw [InChannel.wait]
  induction events with
  | nil => simp [waitAmong]
  | cons e events ih =>
    cases e with
    | byte b => simp [waitAmong]
    | notReady => exact ih

/-- Settles O32: `wait_eq` says which byte a wait takes; when it waits for ever is read off the queued events. -/
theorem waitTakesTheFirstByteToCome : Obligations.WaitTakesTheFirstByteToCome := by
  refine ⟨fun c => ?_, fun events polls bytes =>
    ⟨wait_ended_eq_none_iff events, wait_endless_ne_none events polls bytes⟩⟩
  rcases InChannel.wait_eq c with ⟨hbyte, hwait⟩ | ⟨b, rest, hwait, hbyte, htook⟩
  · simp [hwait, hbyte]
  · refine ⟨by simp [hwait, hbyte], fun b' hb' => ?_⟩
    obtain rfl : b = b' := Option.some.inj (hbyte.symm.trans hb')
    exact ⟨rest, hwait, htook⟩

/-! ### setcc and reset -/

/-- Bit 15 of a word is its sign: set exactly from 0x8000 up. -/
theorem getLsbD_fifteen_iff (v : Word) : v.getLsbD 15 = true ↔ 32768 ≤ v.toNat := by
  rw [show v.getLsbD 15 = v.msb from rfl, BitVec.msb_eq_decide, decide_eq_true_iff]

theorem condOf_cases (v : Word) :
    (condOf v = .z ∧ v.toNat = 0) ∨ (condOf v = .n ∧ 32768 ≤ v.toNat) ∨
      (condOf v = .p ∧ 0 < v.toNat ∧ v.toNat < 32768) := by
  unfold condOf
  split_ifs with hz hn
  · exact .inl ⟨rfl, by simp [hz]⟩
  · exact .inr (.inl ⟨rfl, (getLsbD_fifteen_iff v).1 hn⟩)
  · have hpos : v.toNat ≠ 0 := fun h => hz (BitVec.eq_of_toNat_eq h)
    have hsmall : ¬ 32768 ≤ v.toNat := mt (getLsbD_fifteen_iff v).2 hn
    exact .inr (.inr ⟨rfl, by omega, by omega⟩)

/-- Settles O29: the three ranges of `condOf_cases` exclude each other. -/
theorem setccClassifiesTheResult : Obligations.SetccClassifiesTheResult := by
  refine ⟨fun s dr v => ⟨by simp, rfl⟩, fun s v => ?_⟩
  rw [State.setcc_cond]
  rcases condOf_cases v with ⟨hc, hv⟩ | ⟨hc, hv⟩ | ⟨hc, hpos, hsmall⟩ <;>
    simp only [hc, reduceCtorEq, true_iff, false_iff] <;> omega

theorem State.reg_reset (r : Reg) : State.reset.reg r = 0x0000 := by
  simp [State.reg, State.reset]

/-- Settles O54: each value of `State.reset`; every address is unlisted. -/
theorem resetValuesAreTheSpecs : Obligations.ResetValuesAreTheSpecs :=
  ⟨State.reg_reset, rfl, rfl, fun a => Memory.read_nil a.toNat, rfl, rfl⟩

end Sys2Proof.Machine
end

section
/-! PROOFS of the family 20_memory.md: MemRead and its poll (R41 to R43), MemWrite (R44), the free answers of the poll
(R58), the fetch that polls (R57), which addresses an instruction may change (R45, R49), and the store that the next
fetch sees (R56). -/

namespace Sys2Proof.Machine

/-! ### What a poll's answer says about the channel (R58) -/

theorem InChannel.byteToCome_of_poll_some {c rest : InChannel} {b : Byte} (h : InChannel.poll c = (some b, rest)) :
    c.byteToCome 0 = some b ∧ InChannel.Took 1 c rest := by
  rcases InChannel.poll_eq c with ⟨b', rest', hpoll, hbyte, htook⟩ | ⟨rest', hpoll, -⟩
  · obtain ⟨rfl, rfl⟩ : b' = b ∧ rest' = rest := by simpa [hpoll] using h
    exact ⟨hbyte, htook⟩
  · simp [hpoll] at h

theorem InChannel.took_zero_of_poll_none {c rest : InChannel} (h : InChannel.poll c = (none, rest)) :
    InChannel.Took 0 c rest := by
  rcases InChannel.poll_eq c with ⟨b', rest', hpoll, -, -⟩ | ⟨rest', hpoll, htook⟩
  · simp [hpoll] at h
  · obtain rfl : rest' = rest := by simpa [hpoll] using h
    exact htook

/-- The channel that answers `answer` to the next poll and then goes on as `c`. -/
def InChannel.answering : Option Byte → InChannel → InChannel
  | some b, c => ⟨.byte b :: c.events, c.later⟩
  | none, c => ⟨.notReady :: c.events, c.later⟩

@[simp] theorem InChannel.poll_answering (answer : Option Byte) (c : InChannel) :
    InChannel.poll (InChannel.answering answer c) = (answer, c) := by
  cases answer <;> rfl

theorem InChannel.exists_polls_eq (answers : List (Option Byte)) (c : InChannel) :
    ∃ d, InChannel.polls answers.length d = (answers, c) := by
  induction answers with
  | nil => exact ⟨c, rfl⟩
  | cons answer answers ih =>
    obtain ⟨d, hd⟩ := ih
    exact ⟨InChannel.answering answer d, by simp [InChannel.polls, hd]⟩

/-- Settles O60: the answers are queued one by one in front of the channel; the endless case is `poll`'s own equation. -/
theorem everyAnswerToAPollIsSomeChannels : Obligations.EveryAnswerToAPollIsSomeChannels :=
  ⟨InChannel.exists_polls_eq, fun _ _ => rfl, fun _ _ =>
    ⟨fun _ => InChannel.byteToCome_of_poll_some, InChannel.took_zero_of_poll_none⟩⟩

/-! ### What a poll leaves in the keyboard words (R41, R42) -/

/-- A byte stored as a word, as the obligations write it. -/
theorem setWidth_sixteen_eq_append (b : Byte) : b.setWidth 16 = 0x00#8 ++ b :=
  BitVec.setWidth_eq_append (by decide)

theorem State.peek_pollKeyboard_of_ready (s : State) {b : Byte} {rest : InChannel}
    (h : InChannel.poll s.inp = (some b, rest)) :
    s.pollKeyboard.peek 0xFE00 = 0x8000 ∧ s.pollKeyboard.peek 0xFE02 = 0x00#8 ++ b := by
  rw [s.pollKeyboard_ready h]
  simp [Config.kbsrAddr, Config.kbdrAddr, setWidth_sixteen_eq_append]

theorem State.peek_pollKeyboard_of_notReady (s : State) {rest : InChannel}
    (h : InChannel.poll s.inp = (none, rest)) :
    s.pollKeyboard.peek 0xFE00 = 0x0000 ∧ MemKept s s.pollKeyboard [0xFE00] := by
  rw [s.pollKeyboard_notReady h]
  refine ⟨by simp [Config.kbsrAddr], fun a ha => ?_⟩
  have hne : a ≠ Config.kbsrAddr := mt List.mem_singleton.2 ha
  rw [State.peek_poke, if_neg hne, State.peek_setInp]

theorem memKept_keyboard_intercept (s : State) (a : Word) : MemKept s (s.intercept a) [0xFE00, 0xFE02] := by
  intro b hb
  rw [List.mem_cons, List.mem_singleton, not_or] at hb
  exact s.peek_intercept a hb.1 hb.2

/-- Settles O30: beside KBSR_ADDR the read has no effect; at it the two answers of the poll are the two clauses. -/
theorem memReadPollsOnlyAtKbsr : Obligations.MemReadPollsOnlyAtKbsr := by
  intro s a
  refine ⟨fun ha => ?_, ?_, ?_, memKept_keyboard_intercept s a, fun q _ => s.reg_intercept a q, s.intercept_pc a,
    s.intercept_cond a, s.intercept_run a, s.intercept_out a⟩
  · rw [State.memRead, s.intercept_of_ne ha]
  · rintro rfl b rest hpoll
    obtain ⟨hkbsr, hkbdr⟩ := s.peek_pollKeyboard_of_ready hpoll
    obtain ⟨hbyte, htook⟩ := InChannel.byteToCome_of_poll_some hpoll
    exact ⟨hkbsr, hkbsr, hkbdr, by simp [State.intercept_inp, Config.kbsrAddr, hpoll], hbyte, htook⟩
  · rintro rfl rest hpoll
    obtain ⟨hkbsr, hkept⟩ := s.peek_pollKeyboard_of_notReady hpoll
    exact ⟨hkbsr, hkbsr, hkept 0xFE02 (by decide), by simp [State.intercept_inp, Config.kbsrAddr, hpoll],
      InChannel.took_zero_of_poll_none hpoll⟩

/-! ### MemWrite (R44) -/

theorem memKept_memWrite (s : State) (a v : Word) : MemKept s (s.memWrite a v) [a] := by
  intro b hb
  rw [State.peek_memWrite, if_neg (by simpa using hb)]

/-- Settles O31: MemWrite is the raw write of one word. -/
theorem memWriteStoresUnconditionally : Obligations.MemWriteStoresUnconditionally := by
  intro s a v
  exact ⟨by simp, memKept_memWrite s a v, fun q _ => s.reg_memWrite a v q, rfl, rfl, rfl, rfl, rfl⟩

/-! ### The fetch that polls (R57) -/

theorem State.fetch_of_pc_kbsr (s : State) (hpc : s.pc = 0xFE00) :
    s.fetch = (s.pollKeyboard.peek 0xFE00, s.pollKeyboard.setPc 0xFE01) := by
  ext1 <;> simp only [State.fetch_fst, State.fetch_snd, hpc] <;> rfl

/-- No flag is requested, so the branch is not taken, whatever COND is. -/
theorem branchTaken_no_flag (c : Cond) : branchTaken false false false c = false := by
  cases c <;> decide

theorem exec_br_no_flag (off : BitVec 9) (s : State) : exec (.br false false false off) s = .next (s.setPc s.pc) := by
  rw [exec_br, branchTaken_no_flag]
  rfl

/-- Settles O41: the word fetched is the poll's answer, 0x8000 (RTI) or 0x0000 (a BR that requests no flag). -/
theorem fetchAtKbsrPolls : Obligations.FetchAtKbsrPolls := by
  intro s hrun hpc
  have hstep : step s = exec (decode (s.pollKeyboard.peek 0xFE00)) (s.pollKeyboard.setPc 0xFE01) := by
    rw [step_running hrun, s.fetch_of_pc_kbsr hpc]
  have hregs : RegsKept s s.pollKeyboard [] := fun q _ => s.reg_intercept 0xFE00 q
  constructor
  · intro b rest hpoll
    obtain ⟨hkbsr, hkbdr⟩ := s.peek_pollKeyboard_of_ready hpoll
    have hrti : step s = .next ((s.pollKeyboard.setPc 0xFE01).raise (.invalidOpcode 8)) := by
      rw [hstep, hkbsr]
      exact exec_rti _
    exact ⟨_, hrti, rfl, rfl, hkbsr, hkbdr, memKept_keyboard_intercept s 0xFE00, by simp [hpoll], hregs, s.pollKeyboard_cond,
      s.pollKeyboard_out⟩
  · intro rest hpoll
    obtain ⟨hkbsr, hkept⟩ := s.peek_pollKeyboard_of_notReady hpoll
    have hbr : step s = .next ((s.pollKeyboard.setPc 0xFE01).setPc 0xFE01) := by
      rw [hstep, hkbsr]
      exact exec_br_no_flag 0 _
    exact ⟨_, hbr, by simpa using hrun, rfl, hkbsr, hkept, by simp [hpoll], hregs, s.pollKeyboard_cond,
      s.pollKeyboard_out⟩

/-! ### Which addresses an instruction may change (R44, R45, R49) -/

theorem memKept_of_mem_eq {s t : State} (h : t.mem = s.mem) (as : List Word) : MemKept s t as := by
  intro a _
  rw [State.peek, State.peek, h]

theorem mem_pollCells {c : Word} {as : List Word} :
    c ∈ pollCells as ↔ 0xFE00 ∈ as ∧ (c = 0xFE00 ∨ c = 0xFE02) := by
  unfold pollCells
  split <;> simp_all

/-- Some reads, then what else happens: the addresses read are counted together. -/
theorem MemKept.after_reads {s r t : State} {as bs stored : List Word} (hr : MemKept s r (pollCells as))
    (ht : MemKept r t (stored ++ pollCells bs)) : MemKept s t (stored ++ pollCells (as ++ bs)) := by
  intro c hc
  obtain ⟨hstored, hpoll⟩ : c ∉ stored ∧ c ∉ pollCells (as ++ bs) := by simpa using hc
  have has : c ∉ pollCells as := fun h => hpoll (by simp_all [mem_pollCells])
  have hbs : c ∉ pollCells bs := fun h => hpoll (by simp_all [mem_pollCells])
  rw [ht c (by simp [hstored, hbs]), hr c has]

/-- The link of TRAP and a routine that completes leave memory as it was (R120). -/
theorem RoutineEffect.memKept {s t : State} (h : RoutineEffect s.trapLink t) (as : List Word) : MemKept s t as := by
  obtain ⟨hmem, -⟩ := h
  exact memKept_of_mem_eq hmem as

/-- The execute phase: the reads change at most the keyboard words, then the store changes its one address. -/
theorem memKept_exec {i : Instr} {s t : State} (h : exec i s = .next t) :
    MemKept s t (addressStored i s ++ pollCells (addressesRead i s)) := by
  cases i with
  | ld | ldr =>
    obtain rfl := Host.Outcome.next.inj h
    exact memKept_intercept s _
  | ldi =>
    obtain rfl := Host.Outcome.next.inj h
    exact MemKept.after_reads (stored := []) (memKept_intercept s _) (memKept_intercept _ _)
  | st | str =>
    obtain rfl := Host.Outcome.next.inj h
    exact memKept_memWrite s _ _
  | sti =>
    obtain rfl := Host.Outcome.next.inj h
    exact MemKept.after_reads (bs := []) (memKept_intercept s _) (memKept_memWrite _ _ _)
  | br | addReg | addImm | jsr | andReg | andImm | rti | not | jmp | res | lea =>
    obtain rfl := Host.Outcome.next.inj h
    exact memKept_of_mem_eq rfl _
  | jsrr base =>
    obtain rfl := Host.Outcome.next.inj ((exec_jsrr s base).symm.trans h)
    exact memKept_of_mem_eq rfl _
  | getc => exact (getcRoutine_effect h).memKept _
  | out => exact (outRoutine_effect h).memKept _
  | puts => exact (putsRoutine_effect h).memKept _
  | in_ => exact (inRoutine_effect h).memKept _
  | putsp => exact (putspRoutine_effect h).memKept _
  | halt => exact (haltRoutine_effect h).memKept _
  | trap code => exact (execTrap_effect h).memKept _

/-- Settles O46: the fetch is one more read before the instruction's own. -/
theorem memoryChangesOnlyByStoresAndPolls : Obligations.MemoryChangesOnlyByStoresAndPolls := by
  refine ⟨fun i s t => memKept_exec, fun s t h => ?_⟩
  obtain ⟨-, hexec⟩ := step_next h
  have hfetch : MemKept s s.fetch.2 (pollCells [s.pc]) := memKept_intercept s s.pc
  exact hfetch.after_reads (memKept_exec hexec)

/-! ### A store is seen by the next fetch (R56) -/

/-- An instruction that stores is ST, STI or STR; afterwards the address holds its source register, and the run state is kept. -/
theorem peek_of_addressStored {i : Instr} {s t : State} {a : Word} (hstored : addressStored i s = [a])
    (h : exec i s = .next t) :
    ∃ sr : Reg, ((∃ off, i = .st sr off ∨ i = .sti sr off) ∨ ∃ base off, i = .str sr base off) ∧
      t.peek a = s.reg sr ∧ t.run = s.run := by
  cases i with
  | st sr off =>
    obtain rfl : s.pcRel off = a := List.singleton_inj.1 hstored
    obtain rfl := Host.Outcome.next.inj h
    exact ⟨sr, .inl ⟨off, .inl rfl⟩, by simp, rfl⟩
  | sti sr off =>
    obtain rfl : (s.memRead (s.pcRel off)).1 = a := List.singleton_inj.1 hstored
    obtain rfl := Host.Outcome.next.inj h
    exact ⟨sr, .inl ⟨off, .inr rfl⟩, by simp, s.intercept_run _⟩
  | str sr base off =>
    obtain rfl : s.baseOffset base off = a := List.singleton_inj.1 hstored
    obtain rfl := Host.Outcome.next.inj h
    exact ⟨sr, .inr ⟨base, off, rfl⟩, by simp, rfl⟩
  | _ => simp [addressStored] at hstored

/-- Settles O42: beside KBSR_ADDR the next fetch reads the word just stored. -/
theorem storeIsSeenByTheNextFetch : Obligations.StoreIsSeenByTheNextFetch := by
  rintro s t i a h rfl hstored rfl hkbsr
  obtain ⟨hrun, hexec⟩ := step_next h
  obtain ⟨sr, hi, hpeek, hrunKept⟩ := peek_of_addressStored hstored hexec
  have hnext : t.run = .running := by rw [hrunKept, State.fetch_run, hrun]
  refine ⟨sr, hi, ?_⟩
  rw [step_running hnext, t.fetch_of_ne hkbsr, hpeek, State.reg_fetch]

end Sys2Proof.Machine
end

section
/-! PROOFS of the family 30_encoding.md: what decode answers on each format of R67, whatever its ignored bits hold;
decode looks at no ignored bit (R68); the encoder gives back every other bit; and the decoded row is the first row of
the opcode table that the word has (R69, R70). -/

namespace Sys2Proof

/-! ### Decoding a laid-out word (R67) -/

theorem getLsbD_of_extractLsb'_eq {w : Word} {k : Nat} {m : BitVec 1} (h : w.extractLsb' k 1 = m) :
    w.getLsbD k = m.getLsbD 0 := by
  simp [← h]

/-! What the fields of decode read from a word of each format that several rows share. -/

theorem opr_reads (op : BitVec 4) (d s t : Reg) (m : BitVec 1) (xx : BitVec 2) :
    Word.op (op ++ regBits d ++ regBits s ++ m ++ xx ++ regBits t) = op ∧
    Word.dr (op ++ regBits d ++ regBits s ++ m ++ xx ++ regBits t) = d ∧
    Word.sr1 (op ++ regBits d ++ regBits s ++ m ++ xx ++ regBits t) = s ∧
    (op ++ regBits d ++ regBits s ++ m ++ xx ++ regBits t).getLsbD 5 = m.getLsbD 0 ∧
    Word.sr2 (op ++ regBits d ++ regBits s ++ m ++ xx ++ regBits t) = t := by
  simp only [Word.op, Word.dr, Word.sr1, Word.sr2, opr_field_op, opr_field_d, opr_field_s,
    getLsbD_of_extractLsb'_eq (opr_field_m ..), opr_field_t, toFin_regBits, and_self]

theorem opi_reads (op : BitVec 4) (d s : Reg) (m : BitVec 1) (i : BitVec 5) :
    Word.op (op ++ regBits d ++ regBits s ++ m ++ i) = op ∧ Word.dr (op ++ regBits d ++ regBits s ++ m ++ i) = d ∧
    Word.sr1 (op ++ regBits d ++ regBits s ++ m ++ i) = s ∧
    (op ++ regBits d ++ regBits s ++ m ++ i).getLsbD 5 = m.getLsbD 0 ∧
    Word.imm5 (op ++ regBits d ++ regBits s ++ m ++ i) = i := by
  simp only [Word.op, Word.dr, Word.sr1, Word.imm5, opi_field_op, opi_field_d, opi_field_s,
    getLsbD_of_extractLsb'_eq (opi_field_m ..), opi_field_i, toFin_regBits, and_self]

/-- Bits 11:9 need not be a register's: JMP ignores them. -/
theorem base6_reads (op : BitVec 4) (d : BitVec 3) (s : Reg) (off : BitVec 6) :
    Word.op (op ++ d ++ regBits s ++ off) = op ∧ Word.dr (op ++ d ++ regBits s ++ off) = d.toFin ∧
    Word.sr1 (op ++ d ++ regBits s ++ off) = s ∧ Word.offset6 (op ++ d ++ regBits s ++ off) = off := by
  simp only [Word.op, Word.dr, Word.sr1, Word.offset6, base6_field_op, base6_field_d, base6_field_s, base6_field_i,
    toFin_regBits, and_self]

theorem pc9_reads (op : BitVec 4) (r : Reg) (off : BitVec 9) :
    Word.op (op ++ regBits r ++ off) = op ∧ Word.dr (op ++ regBits r ++ off) = r ∧
    Word.pcOffset9 (op ++ regBits r ++ off) = off := by
  simp only [Word.op, Word.dr, Word.pcOffset9, pc9_field_op, pc9_field_d, pc9_field_i, toFin_regBits, and_self]

section
variable (d s t r : Reg)

theorem decode_addReg (xx : BitVec 2) :
    decode (0b0001#4 ++ regBits d ++ regBits s ++ 0b0#1 ++ xx ++ regBits t) = .addReg d s t := by
  simp only [decode, opr_reads]
  rfl

theorem decode_andReg (xx : BitVec 2) :
    decode (0b0101#4 ++ regBits d ++ regBits s ++ 0b0#1 ++ xx ++ regBits t) = .andReg d s t := by
  simp only [decode, opr_reads]
  rfl

theorem decode_addImm (i : BitVec 5) :
    decode (0b0001#4 ++ regBits d ++ regBits s ++ 0b1#1 ++ i) = .addImm d s i := by
  simp only [decode, opi_reads]
  rfl

theorem decode_andImm (i : BitVec 5) :
    decode (0b0101#4 ++ regBits d ++ regBits s ++ 0b1#1 ++ i) = .andImm d s i := by
  simp only [decode, opi_reads]
  rfl

theorem decode_ldr (off : BitVec 6) : decode (0b0110#4 ++ regBits d ++ regBits s ++ off) = .ldr d s off := by
  simp only [decode, base6_reads, toFin_regBits, BitVec.reduceToNat]

theorem decode_str (off : BitVec 6) : decode (0b0111#4 ++ regBits d ++ regBits s ++ off) = .str d s off := by
  simp only [decode, base6_reads, toFin_regBits, BitVec.reduceToNat]

theorem decode_not (xx : BitVec 6) : decode (0b1001#4 ++ regBits d ++ regBits s ++ xx) = .not d s := by
  simp only [decode, base6_reads, toFin_regBits, BitVec.reduceToNat]

theorem decode_jmp (xx : BitVec 3) (yy : BitVec 6) : decode (0b1100#4 ++ xx ++ regBits s ++ yy) = .jmp s := by
  simp only [decode, base6_reads, BitVec.reduceToNat]

theorem decode_jsrr (xx : BitVec 2) (yy : BitVec 6) :
    decode (0b0100#4 ++ 0b0#1 ++ xx ++ regBits s ++ yy) = .jsrr s := by
  simp only [decode, Word.op, Word.sr1, jsrr_field_op, getLsbD_of_extractLsb'_eq (jsrr_field_l ..), jsrr_field_s,
    toFin_regBits, -BitVec.reduceAppend]
  rfl

theorem decode_jsr (off : BitVec 11) : decode (0b0100#4 ++ 0b1#1 ++ off) = .jsr off := by
  simp only [decode, Word.op, Word.pcOffset11, j11_field_op, getLsbD_of_extractLsb'_eq (j11_field_l ..), j11_field_i,
    -BitVec.reduceAppend]
  rfl

theorem decode_br (n z p : Bool) (off : BitVec 9) :
    decode (0b0000#4 ++ BitVec.ofBool n ++ BitVec.ofBool z ++ BitVec.ofBool p ++ off) = .br n z p off := by
  simp only [decode, Word.op, Word.pcOffset9, br_field_op, getLsbD_of_extractLsb'_eq (br_field_n ..),
    getLsbD_of_extractLsb'_eq (br_field_z ..), getLsbD_of_extractLsb'_eq (br_field_p ..), br_field_i,
    BitVec.getLsbD_ofBool, BitVec.reduceToNat, decide_true, Bool.true_and]

variable (off : BitVec 9)

theorem decode_ld : decode (0b0010#4 ++ regBits r ++ off) = .ld r off := by
  simp only [decode, pc9_reads, BitVec.reduceToNat]

theorem decode_st : decode (0b0011#4 ++ regBits r ++ off) = .st r off := by
  simp only [decode, pc9_reads, BitVec.reduceToNat]

theorem decode_ldi : decode (0b1010#4 ++ regBits r ++ off) = .ldi r off := by
  simp only [decode, pc9_reads, BitVec.reduceToNat]

theorem decode_sti : decode (0b1011#4 ++ regBits r ++ off) = .sti r off := by
  simp only [decode, pc9_reads, BitVec.reduceToNat]

theorem decode_lea : decode (0b1110#4 ++ regBits r ++ off) = .lea r off := by
  simp only [decode, pc9_reads, BitVec.reduceToNat]

end

theorem decode_rti (xx : BitVec 12) : decode (0b1000#4 ++ xx) = .rti := by
  simp only [decode, Word.op, none_field_op, BitVec.reduceToNat]

theorem decode_res (xx : BitVec 12) : decode (0b1101#4 ++ xx) = .res := by
  simp only [decode, Word.op, none_field_op, BitVec.reduceToNat]

/-- Every TRAP row at once: the six named codes are `decodeTrap`'s own cases. -/
theorem decode_trapWord (xx : BitVec 4) (code : BitVec 8) : decode (0b1111#4 ++ xx ++ code) = decodeTrap code := by
  simp only [decode, Word.op, Word.trapvect8, trap_field_op, trap_field_v, BitVec.reduceToNat]

theorem decodeTrap_of_wellFormed {code : BitVec 8} (h : (Instr.trap code).wellFormed = true) :
    decodeTrap code = .trap code := by
  simp_all [Instr.wellFormed, namedTrapCodes, decodeTrap]

/-! ### Decode of encode -/

theorem encode_br (n z p : Bool) (off : BitVec 9) :
    encode (.br n z p off) = 0b0000#4 ++ BitVec.ofBool n ++ BitVec.ofBool z ++ BitVec.ofBool p ++ off := by
  cases n <;> cases z <;> cases p <;> rfl

theorem decode_encode {i : Instr} (hwf : i.wellFormed = true) : decode (encode i) = i := by
  cases i with
  | br n z p off => rw [encode_br, decode_br]
  | addReg d s t => exact decode_addReg d s t 0
  | addImm d s i => exact decode_addImm d s i
  | ld d off => exact decode_ld d off
  | st s off => exact decode_st s off
  | jsr off => exact decode_jsr off
  | jsrr b => exact decode_jsrr b 0 0
  | andReg d s t => exact decode_andReg d s t 0
  | andImm d s i => exact decode_andImm d s i
  | ldr d b off => exact decode_ldr d b off
  | str s b off => exact decode_str s b off
  | not d s => exact decode_not d s 0b111111
  | ldi d off => exact decode_ldi d off
  | sti s off => exact decode_sti s off
  | jmp b => exact decode_jmp b 0 0
  | lea d off => exact decode_lea d off
  | trap code => exact (decode_trapWord 0 code).trans (decodeTrap_of_wellFormed hwf)
  | rti | res | getc | out | puts | in_ | putsp | halt => rfl

/-- Settles O35, format by format, from the field laws. -/
theorem decodeOfEncodeIsTheInstruction : Obligations.DecodeOfEncodeIsTheInstruction :=
  fun _ => decode_encode

/-! ### Ignored bits do not matter to decode (R68) -/

section
variable {w v m : Word} (h : w &&& ~~~m = v &&& ~~~m)
include h

/-- A field outside the ignored bits is the same in two words that agree outside them. -/
theorem extractLsb'_congr_of_and_not (k n : Nat) (hm : (~~~m).extractLsb' k n = BitVec.allOnes n) :
    w.extractLsb' k n = v.extractLsb' k n := by
  simpa [BitVec.extractLsb'_and, hm] using congrArg (BitVec.extractLsb' k n) h

theorem getLsbD_congr_of_and_not (k : Nat) (hm : (~~~m).getLsbD k = true) : w.getLsbD k = v.getLsbD k := by
  simpa only [BitVec.getLsbD_and, hm, Bool.and_true] using congrArg (BitVec.getLsbD · k) h

end

theorem ignoredBits_decodeTrap (code : BitVec 8) : (decodeTrap code).ignoredBits = 0x0F00 := by
  unfold decodeTrap
  split_ifs <;> rfl

theorem opcode_not_ignored (i : Instr) : (~~~i.ignoredBits).extractLsb' 12 4 = BitVec.allOnes 4 := by
  unfold Instr.ignoredBits
  split <;> rfl

/-- Decode reads the same opcode, and then only fields of that row, none of which holds an ignored bit. -/
theorem decode_congr_of_and_not_ignoredBits {w v : Word}
    (h : w &&& ~~~(decode v).ignoredBits = v &&& ~~~(decode v).ignoredBits) : decode w = decode v := by
  have hop : w.op = v.op := extractLsb'_congr_of_and_not h 12 4 (opcode_not_ignored _)
  revert h
  fun_cases decode v <;> intro h
  case case19 =>
    have hv : v.op.toNat = 15 := by grind [v.op.isLt]
    rw [ignoredBits_decodeTrap] at h
    simp (disch := decide) only [decode, hop, hv, Word.trapvect8, extractLsb'_congr_of_and_not h]
  all_goals
    simp only [Instr.ignoredBits] at h
    simp (disch := decide) only [decode, Word.dr, Word.sr1, Word.sr2, Word.imm5, Word.offset6, Word.pcOffset9,
      Word.pcOffset11, extractLsb'_congr_of_and_not h, getLsbD_congr_of_and_not h, Bool.false_eq_true, if_true,
      if_false, *]

theorem xor_and_and_not (w x m : Word) : (w ^^^ (x &&& m)) &&& ~~~m = w &&& ~~~m := by
  ext j hj
  simp only [BitVec.getElem_and, BitVec.getElem_xor, BitVec.getElem_not]
  cases m[j] <;> simp

theorem decode_xor_ignoredBits (w x : Word) : decode (w ^^^ (x &&& (decode w).ignoredBits)) = decode w :=
  decode_congr_of_and_not_ignoredBits (xor_and_and_not w x _)

/-! ### The encoder gives back every bit that is not ignored (R68) -/

/-- The word is the encoder's word of the instruction, but for the bits that decode ignores. -/
def Instr.IsWord (i : Instr) (w : Word) : Prop := encode i &&& ~~~i.ignoredBits = w &&& ~~~i.ignoredBits

theorem Instr.IsWord.of_encode_eq {i : Instr} {w : Word} (h : encode i = w) : i.IsWord w :=
  congrArg (· &&& ~~~i.ignoredBits) h

/-! Each format with ignored bits: the mask of the others takes them away, whatever they hold. -/

section
variable (op : BitVec 4)

theorem opr_ignores (d s : BitVec 3) (m : BitVec 1) (xx yy : BitVec 2) (t : BitVec 3) :
    (op ++ d ++ s ++ m ++ xx ++ t) &&& ~~~0x0018#16 = (op ++ d ++ s ++ m ++ yy ++ t) &&& ~~~0x0018#16 := by
  change _ &&& (0xF#4 ++ 7#3 ++ 7#3 ++ 1#1 ++ 0#2 ++ 7#3) = _ &&& (0xF#4 ++ 7#3 ++ 7#3 ++ 1#1 ++ 0#2 ++ 7#3)
  simp only [BitVec.and_append, BitVec.and_zero, -BitVec.reduceAppend]

theorem not_ignores (d s : BitVec 3) (xx yy : BitVec 6) :
    (op ++ d ++ s ++ xx) &&& ~~~0x003F#16 = (op ++ d ++ s ++ yy) &&& ~~~0x003F#16 := by
  change _ &&& (0xF#4 ++ 7#3 ++ 7#3 ++ 0#6) = _ &&& (0xF#4 ++ 7#3 ++ 7#3 ++ 0#6)
  simp only [BitVec.and_append, BitVec.and_zero, -BitVec.reduceAppend]

theorem jmp_ignores (xx xx' : BitVec 3) (s : BitVec 3) (yy yy' : BitVec 6) :
    (op ++ xx ++ s ++ yy) &&& ~~~0x0E3F#16 = (op ++ xx' ++ s ++ yy') &&& ~~~0x0E3F#16 := by
  change _ &&& (0xF#4 ++ 0#3 ++ 7#3 ++ 0#6) = _ &&& (0xF#4 ++ 0#3 ++ 7#3 ++ 0#6)
  simp only [BitVec.and_append, BitVec.and_zero, -BitVec.reduceAppend]

theorem jsrr_ignores (l : BitVec 1) (xx xx' : BitVec 2) (s : BitVec 3) (yy yy' : BitVec 6) :
    (op ++ l ++ xx ++ s ++ yy) &&& ~~~0x063F#16 = (op ++ l ++ xx' ++ s ++ yy') &&& ~~~0x063F#16 := by
  change _ &&& (0xF#4 ++ 1#1 ++ 0#2 ++ 7#3 ++ 0#6) = _ &&& (0xF#4 ++ 1#1 ++ 0#2 ++ 7#3 ++ 0#6)
  simp only [BitVec.and_append, BitVec.and_zero, -BitVec.reduceAppend]

theorem trap_ignores (xx yy : BitVec 4) (v : BitVec 8) :
    (op ++ xx ++ v) &&& ~~~0x0F00#16 = (op ++ yy ++ v) &&& ~~~0x0F00#16 := by
  change _ &&& (0xF#4 ++ 0#4 ++ 0xFF#8) = _ &&& (0xF#4 ++ 0#4 ++ 0xFF#8)
  simp only [BitVec.and_append, BitVec.and_zero, -BitVec.reduceAppend]

theorem none_ignores (xx yy : BitVec 12) : (op ++ xx) &&& ~~~0x0FFF#16 = (op ++ yy) &&& ~~~0x0FFF#16 := by
  change _ &&& (0xF#4 ++ 0#12) = _ &&& (0xF#4 ++ 0#12)
  simp only [BitVec.and_append, BitVec.and_zero, -BitVec.reduceAppend]

end

/-! Each format's word from its own fields. -/

theorem extractLsb'_one_of_getLsbD {w : Word} {k : Nat} {b : Bool} (h : w.getLsbD k = b) :
    w.extractLsb' k 1 = BitVec.ofBool b := by
  ext j hj
  obtain rfl : j = 0 := by omega
  simp [← h]

section
variable {op : BitVec 4} {w : Word} (hop : w.op.toNat = op.toNat)
include hop

theorem br_fields :
    op ++ BitVec.ofBool (w.getLsbD 11) ++ BitVec.ofBool (w.getLsbD 10) ++ BitVec.ofBool (w.getLsbD 9) ++ w.pcOffset9
      = w := by
  obtain rfl := BitVec.eq_of_toNat_eq hop
  simp (disch := rfl) only [Word.op, Word.pcOffset9, ← extractLsb'_one_of_getLsbD rfl,
    BitVec.extractLsb'_append_extractLsb'_eq_extractLsb', BitVec.extractLsb'_eq_self]

theorem encOpi_fields (hm : w.getLsbD 5 = true) : encOpi op w.dr w.sr1 w.imm5 = w := by
  obtain rfl := BitVec.eq_of_toNat_eq hop
  have hbit : 0b1#1 = w.extractLsb' 5 1 := (extractLsb'_one_of_getLsbD hm).symm
  simp (disch := rfl) only [encOpi, hbit, Word.op, Word.dr, Word.sr1, Word.imm5, regBits_toFin,
    BitVec.extractLsb'_append_extractLsb'_eq_extractLsb', BitVec.extractLsb'_eq_self]

theorem encOpr_fields (hm : ¬ w.getLsbD 5 = true) :
    encOpr op w.dr w.sr1 w.sr2 &&& ~~~0x0018#16 = w &&& ~~~0x0018#16 := by
  obtain rfl := BitVec.eq_of_toNat_eq hop
  have hbit : 0b0#1 = w.extractLsb' 5 1 := (extractLsb'_one_of_getLsbD (Bool.eq_false_of_not_eq_true hm)).symm
  rw [encOpr, opr_ignores _ _ _ _ _ (w.extractLsb' 3 2)]
  simp (disch := rfl) only [hbit, Word.op, Word.dr, Word.sr1, Word.sr2, regBits_toFin,
    BitVec.extractLsb'_append_extractLsb'_eq_extractLsb', BitVec.extractLsb'_eq_self]

theorem encPc9_fields : encPc9 op w.dr w.pcOffset9 = w := by
  obtain rfl := BitVec.eq_of_toNat_eq hop
  simp (disch := rfl) only [encPc9, Word.op, Word.dr, Word.pcOffset9, regBits_toFin,
    BitVec.extractLsb'_append_extractLsb'_eq_extractLsb', BitVec.extractLsb'_eq_self]

theorem encBase6_fields : encBase6 op w.dr w.sr1 w.offset6 = w := by
  obtain rfl := BitVec.eq_of_toNat_eq hop
  simp (disch := rfl) only [encBase6, Word.op, Word.dr, Word.sr1, Word.offset6, regBits_toFin,
    BitVec.extractLsb'_append_extractLsb'_eq_extractLsb', BitVec.extractLsb'_eq_self]

/-- The word of format UN, NOT's. -/
theorem not_fields (xx : BitVec 6) :
    (op ++ regBits w.dr ++ regBits w.sr1 ++ xx) &&& ~~~0x003F#16 = w &&& ~~~0x003F#16 := by
  rw [not_ignores _ _ _ _ w.offset6]
  exact congrArg (· &&& ~~~0x003F#16) (encBase6_fields hop)

theorem jmp_fields : encJr op w.sr1 &&& ~~~0x0E3F#16 = w &&& ~~~0x0E3F#16 := by
  rw [encJr, jmp_ignores _ _ (regBits w.dr) _ _ w.offset6]
  exact congrArg (· &&& ~~~0x0E3F#16) (encBase6_fields hop)

theorem jsr_fields (hl : w.getLsbD 11 = true) : op ++ 0b1#1 ++ w.pcOffset11 = w := by
  obtain rfl := BitVec.eq_of_toNat_eq hop
  have hbit : 0b1#1 = w.extractLsb' 11 1 := (extractLsb'_one_of_getLsbD hl).symm
  simp (disch := rfl) only [hbit, Word.op, Word.pcOffset11, BitVec.extractLsb'_append_extractLsb'_eq_extractLsb',
    BitVec.extractLsb'_eq_self]

theorem none_fields (xx : BitVec 12) : (op ++ xx) &&& ~~~0x0FFF#16 = w &&& ~~~0x0FFF#16 := by
  obtain rfl := BitVec.eq_of_toNat_eq hop
  rw [none_ignores _ _ (w.extractLsb' 0 12)]
  simp (disch := rfl) only [Word.op, BitVec.extractLsb'_append_extractLsb'_eq_extractLsb', BitVec.extractLsb'_eq_self]

end

theorem jsrr_fields {w : Word} (hop : w.op.toNat = 4) (hl : ¬ w.getLsbD 11 = true) :
    encJr 0b0100#4 w.sr1 &&& ~~~0x063F#16 = w &&& ~~~0x063F#16 := by
  have hop' : 0b0100#4 = w.extractLsb' 12 4 := (BitVec.eq_of_toNat_eq hop).symm
  have hbit : 0b0#1 = w.extractLsb' 11 1 := (extractLsb'_one_of_getLsbD (Bool.eq_false_of_not_eq_true hl)).symm
  change (0b0100#4 ++ 0b0#1 ++ 0b00#2 ++ regBits w.sr1 ++ 0b000000#6) &&& _ = _
  rw [jsrr_ignores _ _ _ (w.extractLsb' 9 2) _ _ w.offset6, hop', hbit]
  simp (disch := rfl) only [Word.sr1, Word.offset6, regBits_toFin,
    BitVec.extractLsb'_append_extractLsb'_eq_extractLsb', BitVec.extractLsb'_eq_self]

theorem encTrap_fields {w : Word} (hop : w.op.toNat = 15) :
    encTrap w.trapvect8 &&& ~~~0x0F00#16 = w &&& ~~~0x0F00#16 := by
  have hop' : 0b1111#4 = w.extractLsb' 12 4 := (BitVec.eq_of_toNat_eq hop).symm
  rw [encTrap, trap_ignores _ _ (w.extractLsb' 8 4)]
  simp (disch := rfl) only [hop', Word.trapvect8, BitVec.extractLsb'_append_extractLsb'_eq_extractLsb',
    BitVec.extractLsb'_eq_self]

theorem encode_decodeTrap (code : BitVec 8) : encode (decodeTrap code) = encTrap code := by
  unfold decodeTrap
  split_ifs <;> simp_all [encode]

/-- By the branches of `decode`, taken together by format; the last one is TRAP's. -/
theorem isWord_decode (w : Word) : (decode w).IsWord w := by
  fun_cases decode w
  case case1 hop =>
    exact Instr.IsWord.of_encode_eq ((encode_br ..).trans (br_fields (op := 0b0000#4) hop))
  case case2 hop hm | case8 hop hm => exact Instr.IsWord.of_encode_eq (encOpi_fields hop hm)
  case case3 hop hm | case9 hop hm => exact encOpr_fields hop hm
  case case4 hop | case5 hop | case14 hop | case15 hop | case18 hop =>
    exact Instr.IsWord.of_encode_eq (encPc9_fields hop)
  case case6 hop hl => exact Instr.IsWord.of_encode_eq (jsr_fields hop hl)
  case case7 hop hl => exact jsrr_fields hop hl
  case case10 hop | case11 hop => exact Instr.IsWord.of_encode_eq (encBase6_fields hop)
  case case12 hop | case17 hop => exact none_fields hop _
  case case13 hop => exact not_fields hop _
  case case16 hop => exact jmp_fields hop
  case case19 =>
    have hop : w.op.toNat = 15 := by grind [w.op.isLt]
    rw [Instr.IsWord, encode_decodeTrap, ignoredBits_decodeTrap]
    exact encTrap_fields hop

/-- Settles O37: decode reads no ignored bit, and the encoder lays out every field it reads. -/
theorem decodeIgnoresExactlyTheUnnamedBits : Obligations.DecodeIgnoresExactlyTheUnnamedBits :=
  ⟨decode_xor_ignoredBits, isWord_decode⟩

/-! ### The first row of the opcode table (R69, R70) -/

theorem encode_hits_row (i : Instr) : i.row.hits (encode i) = true := by
  cases i with
  | br n z p off => exact Laws.EncodeHitsRow.br n z p off
  | addReg d s t => exact Laws.EncodeHitsRow.addReg d s t
  | addImm d s i => exact Laws.EncodeHitsRow.addImm d s i
  | ld d off => exact Laws.EncodeHitsRow.ld d off
  | st s off => exact Laws.EncodeHitsRow.st s off
  | jsr off => exact Laws.EncodeHitsRow.jsr off
  | jsrr b => exact Laws.EncodeHitsRow.jsrr b
  | andReg d s t => exact Laws.EncodeHitsRow.andReg d s t
  | andImm d s i => exact Laws.EncodeHitsRow.andImm d s i
  | ldr d b off => exact Laws.EncodeHitsRow.ldr d b off
  | str s b off => exact Laws.EncodeHitsRow.str s b off
  | not d s => exact Laws.EncodeHitsRow.not d s
  | ldi d off => exact Laws.EncodeHitsRow.ldi d off
  | sti s off => exact Laws.EncodeHitsRow.sti s off
  | jmp b => exact Laws.EncodeHitsRow.jmp b
  | lea d off => exact Laws.EncodeHitsRow.lea d off
  | trap code => exact Laws.EncodeHitsRow.trap code
  | rti | res | getc | out | puts | in_ | putsp | halt => rfl

/-- No row looks at a bit that decode ignores. -/
theorem row_mask_not_ignored (i : Instr) : ~~~i.ignoredBits &&& i.row.mask = i.row.mask := by
  cases i <;> simp only [Instr.ignoredBits, Instr.row] <;> rfl

theorem Instr.IsWord.hits_row {i : Instr} {w : Word} (h : i.IsWord w) : i.row.hits w = true := by
  have hmask : encode i &&& i.row.mask = w &&& i.row.mask := by
    rw [← row_mask_not_ignored, ← BitVec.and_assoc, h, BitVec.and_assoc]
  rw [Row.hits, ← hmask]
  exact encode_hits_row i

theorem find?_eq_some_of_imp {α : Type} {p q : α → Bool} {l : List α} {r : α} (hpq : ∀ a, p a = true → q a = true)
    (hr : p r = true) (h : l.find? q = some r) : l.find? p = some r := by
  rw [List.find?_eq_some_iff_append] at h ⊢
  obtain ⟨-, before, after, rfl, hbefore⟩ := h
  refine ⟨hr, before, after, rfl, fun a ha => ?_⟩
  simpa using mt (hpq a) (by simpa using hbefore a ha)

/-- A word with the bits `p` under `m` can only have a row that agrees with `p` on the bits that both fix. -/
theorem agrees_of_hits {a : Row} {w m p : Word} (hw : w &&& m = p) (ha : a.hits w = true) :
    (a.pattern &&& m == p &&& a.mask) = true := by
  have hpattern : w &&& a.mask = a.pattern := eq_of_beq ha
  rw [← hpattern, ← hw, BitVec.and_assoc, BitVec.and_assoc, BitVec.and_comm a.mask, beq_self_eq_true]

/-- A row before the generic TRAP row has another opcode, or is the row of one of the six codes. -/
theorem opcode_or_code_of_mem_dropLast {a : Row} (ha : a ∈ opcodeTable.dropLast) :
    (a.pattern &&& 0xF000 == 0xF000 &&& a.mask) = false ∨
      a.mask = 0xF0FF ∧ a.pattern = encTrap a.pattern.trapvect8 ∧ a.pattern.trapvect8 ∈ namedTrapCodes := by
  revert a
  decide

theorem Instr.IsWord.trapvect8_eq {code : BitVec 8} {w : Word} (h : (Instr.trap code).IsWord w) : w.trapvect8 = code :=
  calc w.trapvect8 = (encTrap code).extractLsb' 0 8 := (extractLsb'_congr_of_and_not (m := 0x0F00) h 0 8 rfl).symm
    _ = code := trap_field_v ..

theorem trapvect8_eq_of_hits {a : Row} {w : Word} {code : BitVec 8} (ha : a.hits w = true) (hmask : a.mask = 0xF0FF)
    (hpattern : a.pattern = encTrap code) : w.trapvect8 = code := by
  have hw : w &&& 0xF0FF = encTrap code := by simpa [Row.hits, hmask, hpattern] using ha
  calc w.trapvect8 = (w &&& 0xF0FF).extractLsb' 0 8 := by
        rw [BitVec.extractLsb'_and]; exact BitVec.and_allOnes.symm
    _ = (encTrap code).extractLsb' 0 8 := by rw [hw]
    _ = code := trap_field_v ..

theorem find?_hits_of_isWord_trap {code : BitVec 8} {w : Word} (hwf : (Instr.trap code).wellFormed = true)
    (h : (Instr.trap code).IsWord w) : opcodeTable.find? (fun r => r.hits w) = some (Instr.trap code).row := by
  have hcode : code ∉ namedTrapCodes := by simpa [Instr.wellFormed] using hwf
  rw [List.find?_eq_some_iff_append]
  refine ⟨h.hits_row, opcodeTable.dropLast, [], rfl, fun a ha => ?_⟩
  by_contra hhits
  replace hhits : a.hits w = true := by simpa using hhits
  obtain hop | ⟨hmask, hpattern, hnamed⟩ := opcode_or_code_of_mem_dropLast ha
  · exact absurd (agrees_of_hits (eq_of_beq h.hits_row) hhits) (Bool.eq_false_iff.1 hop)
  · exact hcode (h.trapvect8_eq ▸ trapvect8_eq_of_hits hhits hmask hpattern ▸ hnamed)

theorem find?_hits_of_isWord {i : Instr} {w : Word} (hwf : i.wellFormed = true) (h : i.IsWord w) :
    opcodeTable.find? (fun r => r.hits w) = some i.row := by
  cases i with
  | trap code => exact find?_hits_of_isWord_trap hwf h
  | _ =>
    refine find?_eq_some_of_imp (fun (a : Row) => agrees_of_hits (eq_of_beq h.hits_row)) h.hits_row ?_
    simp only [Instr.row]
    rfl

/-- Settles O36: the word is one of its decoded instruction, and no earlier row has it. -/
theorem everyWordDecodesToItsFirstTableRow : Obligations.EveryWordDecodesToItsFirstTableRow :=
  fun w => ⟨Machine.decode_wellFormed w, find?_hits_of_isWord (Machine.decode_wellFormed w) (isWord_decode w)⟩

end Sys2Proof
end

section
/-! PROOFS of the family 40_operate.md. Each instruction decodes from its format (`decode_…`) and answers `State.define`
of its result, whose frame is `definesOnly_define`; what is left is the result itself, as a number or bit by bit. -/

namespace Sys2Proof.Machine

/-! ### The results as numbers and as bits -/

/-- A word plus a signed field is their integer sum modulo 65536; immediates and offsets alike (R13). -/
theorem ofInt_toNat_add_toInt (v : Word) {n : Nat} (f : BitVec n) :
    BitVec.ofInt 16 ((v.toNat : Int) + f.toInt) = v + sext f := by
  rw [BitVec.ofInt_add, BitVec.ofInt_natCast, BitVec.ofNat_toNat, BitVec.setWidth_eq, sext, BitVec.signExtend]

theorem ofNat_toNat_add_toNat_mod (v w : Word) : BitVec.ofNat 16 ((v.toNat + w.toNat) % 65536) = v + w :=
  BitVec.eq_of_toNat_eq (by simp)

/-- Below bit 4 the bits of imm5, from bit 4 up its sign (R83). -/
theorem getLsbD_sext_imm5 (imm : BitVec 5) (k : Nat) :
    (sext imm).getLsbD k = (decide (k < 16) && if k < 4 then imm.getLsbD k else imm.getLsbD 4) := by
  rw [sext, BitVec.getLsbD_signExtend, BitVec.msb_eq_getLsbD_last]
  rcases Nat.lt_trichotomy k 4 with hlow | rfl | hhigh
  · simp [hlow, show k < 5 by omega]
  · simp
  · simp [show ¬ k < 4 by omega, show ¬ k < 5 by omega]

/-- The cut at bit 16 that a sign extension makes is lost beside a word's bit. -/
theorem getLsbD_and_decide_lt (v : Word) (k : Nat) : (v.getLsbD k && decide (k < 16)) = v.getLsbD k :=
  Bool.and_eq_left_iff_imp.2 fun h => decide_eq_true (BitVec.lt_of_getLsbD h)

/-! ### The instructions -/

/-- Settles O1: the model's addition of words is the sum modulo 65536. -/
theorem addRegisterFormSumsModulo65536 : Obligations.AddRegisterFormSumsModulo65536 := by
  refine ⟨decode_addReg, fun dr sr1 sr2 s => ⟨_, exec_addReg s dr sr1 sr2, ?_⟩⟩
  rw [ofNat_toNat_add_toNat_mod]
  exact definesOnly_define s dr _

/-- Settles O2: adding the sign-extended field is adding its signed value modulo 65536. -/
theorem addImmediateFormAddsSignExtendedImm5 : Obligations.AddImmediateFormAddsSignExtendedImm5 := by
  refine ⟨decode_addImm, fun dr sr1 imm s => ⟨_, exec_addImm s dr sr1 imm, ?_⟩⟩
  rw [ofInt_toNat_add_toInt]
  exact definesOnly_define s dr _

/-- Settles O3: a bit of an AND of words is the AND of their bits. -/
theorem andRegisterFormIsBitwise : Obligations.AndRegisterFormIsBitwise :=
  ⟨decode_andReg, fun dr sr1 sr2 s =>
    ⟨_, _, exec_andReg s dr sr1 sr2, definesOnly_define s dr _, fun _ => BitVec.getLsbD_and⟩⟩

/-- Settles O4: the bits of the extended immediate are `getLsbD_sext_imm5`. -/
theorem andImmediateFormIsBitwiseWithSignExtension : Obligations.AndImmediateFormIsBitwiseWithSignExtension := by
  refine ⟨decode_andImm, fun dr sr1 imm s =>
    ⟨_, _, exec_andImm s dr sr1 imm, definesOnly_define s dr _, fun k => ?_⟩⟩
  rw [BitVec.getLsbD_and, getLsbD_sext_imm5, ← Bool.and_assoc, getLsbD_and_decide_lt]

/-- Settles O5: the complement of a word is cut at bit 16, and every bit asked for lies below. -/
theorem notComplementsEveryBit : Obligations.NotComplementsEveryBit := by
  refine ⟨decode_not, fun dr sr s => ⟨_, _, exec_not s dr sr, definesOnly_define s dr _, fun k hk => ?_⟩⟩
  rw [BitVec.getLsbD_not, decide_eq_true hk, Bool.true_and]

end Sys2Proof.Machine
end

section
/-! PROOFS of the family 41_control.md. BR and JMP answer `State.setPc`, whose frame is `jumpsOnly_setPc`; JSR and JSRR
answer `State.linkAndJump`, whose frame is `linkAndJump_frame`. What is left is the branch test of BR and the target of
JSRR under each read order. -/

namespace Sys2Proof.Machine

/-! ### The branch test (R64, R90) -/

/-- The AND of the requested flags with the one-hot COND is nonzero exactly when the flag COND holds is requested. -/
theorem branchTaken_iff (n z p : Bool) (c : Cond) :
    branchTaken n z p c = true ↔ (n = true ∧ c = .n) ∨ (z = true ∧ c = .z) ∨ (p = true ∧ c = .p) := by
  revert n z p
  cases c <;> decide

/-! ### The subroutine link (R92, R93) -/

/-- What JSR and JSRR do once their target is known: R7 becomes the return address, then pc the target. -/
def State.linkAndJump (s : State) (target : Word) : State := (s.setReg 7 s.pc).setPc target

theorem exec_jsr_eq_linkAndJump (s : State) (off : BitVec 11) :
    exec (.jsr off) s = .next (s.linkAndJump (s.pcRel off)) := exec_jsr s off

theorem exec_jsrr_eq_linkAndJump (s : State) (base : Reg) :
    exec (.jsrr base) s =
      .next (s.linkAndJump (if Config.jsrrBaseRead = .afterLink ∧ base = 7 then s.pc else s.reg base)) :=
  exec_jsrr s base

theorem reg_seven_linkAndJump (s : State) (target : Word) : (s.linkAndJump target).reg 7 = s.pc := by
  rw [State.linkAndJump, State.reg_setPc, State.reg_setReg, if_pos rfl]

/-- Only R7 and pc differ after a link and a jump. -/
theorem linkAndJump_frame (s : State) (target : Word) :
    RegsKept s (s.linkAndJump target) [7] ∧ (s.linkAndJump target).cond = s.cond ∧
    MemKept s (s.linkAndJump target) [] ∧ (s.linkAndJump target).run = s.run ∧
    ChannelsKept s (s.linkAndJump target) := by
  refine ⟨fun r hr => ?_, rfl, fun _ _ => rfl, rfl, rfl, rfl⟩
  rw [State.linkAndJump, State.reg_setPc, State.reg_setReg, if_neg (by simpa using hr)]

/-! ### The instructions -/

/-- Settles O6: the jump is to the same place on both sides once the branch test is spelt flag by flag. -/
theorem brAddsOffsetExactlyWhenFlagRequested : Obligations.BrAddsOffsetExactlyWhenFlagRequested := by
  refine ⟨decode_br, fun n z p off s => ⟨_, exec_br s n z p off, ?_⟩⟩
  simp only [branchTaken_iff]
  exact jumpsOnly_setPc s _

/-- Settles O7: JMP sets pc and nothing else. -/
theorem jmpGoesToTheBaseRegister : Obligations.JmpGoesToTheBaseRegister :=
  ⟨decode_jmp, fun base s => ⟨_, exec_jmp s base, jumpsOnly_setPc s _⟩⟩

/-- Settles O8: the target is relative to the old pc, which the link does not change. -/
theorem jsrLinksAndGoesToTheOffset : Obligations.JsrLinksAndGoesToTheOffset :=
  ⟨decode_jsr, fun off s =>
    ⟨_, exec_jsr_eq_linkAndJump s off, reg_seven_linkAndJump s _, rfl, linkAndJump_frame s _⟩⟩

/-- Settles O9: the target differs between the two read orders only when BaseR is the link register. -/
theorem jsrrLinksAndGoesToTheBaseRegister : Obligations.JsrrLinksAndGoesToTheBaseRegister := by
  refine ⟨decode_jsrr, fun base s =>
    ⟨_, exec_jsrr_eq_linkAndJump s base, reg_seven_linkAndJump s _, fun hbefore => ?_, fun hafter => ?_,
      linkAndJump_frame s _⟩⟩
  · exact if_neg (by simp [hbefore])
  · exact if_congr (by simp [hafter]) rfl rfl

end Sys2Proof.Machine
end

section
/-! PROOFS of the family 42_load.md. Each load defines DR in the state its reads leave; `loadsOnly_define` gives the frame
of that once, and what the reads of one instruction do is `ReadEffect`. LDI polls at most once, because the word a poll
answers is not KBSR_ADDR. LEA reads nothing: its frame is `definesOnly_define`. -/

namespace Sys2Proof.Machine

/-! ### Defining a register after reads (R100 to R102) -/

/-- `t` is `s` after a load whose reads, of the addresses `as`, left the state `r` and answered `v`: DR holds `v`, COND is
set from it, memory and input are as in `r`, and nothing else differs from `s`. -/
def LoadsOnly (s r t : State) (dr : Reg) (v : Word) (as : List Word) : Prop :=
  t.reg dr = v ∧ t.cond = condOf v ∧ RegsKept s t [dr] ∧ MemKept r t [] ∧ MemKept s t (pollCells as) ∧
    t.inp = r.inp ∧ t.out = s.out ∧ t.pc = s.pc ∧ t.run = s.run

theorem loadsOnly_define {s r : State} {as : List Word} (hr : ReadEffect s r) (hmem : MemKept s r (pollCells as))
    (dr : Reg) (v : Word) : LoadsOnly s r (r.define dr v) dr v as := by
  obtain ⟨hreg, hcond, hregs, hpeek, hpc, hrun, hinp, hout⟩ := definesOnly_define r dr v
  exact ⟨hreg, hcond, fun q hq => (hregs q hq).trans (hr.reg q), hpeek, hmem, hinp, hout.trans hr.out, hpc.trans hr.pc,
    hrun.trans hr.run⟩

/-- One MemRead, then the definition: LD and LDR differ only in the address. -/
theorem loadsOnly_memRead (s : State) (a : Word) (dr : Reg) :
    LoadsOnly s (s.memRead a).2 ((s.memRead a).2.define dr (s.memRead a).1) dr (s.memRead a).1 [a] :=
  loadsOnly_define (readEffect_intercept s a) (memKept_intercept s a) dr _

/-- Reading an address and then the address found there changes no cell but the keyboard words, and those only when one
of the two is KBSR_ADDR. -/
theorem memKept_through_pointer (s : State) (a : Word) :
    MemKept s ((s.intercept a).intercept ((s.intercept a).peek a)) (pollCells [a, (s.intercept a).peek a]) :=
  MemKept.after_reads (stored := []) (memKept_intercept s a) (memKept_intercept _ _)

/-! ### The polls of LDI (R101) -/

/-- The word a poll answers, 0x8000 or 0x0000, is not the address that polls. -/
theorem State.peek_pollKeyboard_kbsr_ne (s : State) : s.pollKeyboard.peek Config.kbsrAddr ≠ Config.kbsrAddr := by
  rcases s.peek_pollKeyboard_kbsr with hready | hnotReady
  · rw [hready]
    decide
  · rw [hnotReady]
    decide

theorem State.intercept_inp_eq_or (s : State) (a : Word) :
    (s.intercept a).inp = s.inp ∨ (s.intercept a).inp = (InChannel.poll s.inp).2 := by
  rw [State.intercept_inp]
  exact (ite_eq_or_eq ..).symm

theorem State.inp_through_pointer (s : State) (a : Word) :
    ((s.intercept a).intercept ((s.intercept a).peek a)).inp = s.inp ∨
      ((s.intercept a).intercept ((s.intercept a).peek a)).inp = (InChannel.poll s.inp).2 := by
  rcases s.intercept_through_pointer a with hsecond | hfirst
  · rw [hsecond]
    exact s.intercept_inp_eq_or a
  · rw [hfirst]
    exact s.intercept_inp_eq_or _

/-! ### The instructions -/

/-- Settles O11: two reads, the second at the word the first answers, then DR. -/
theorem ldiReadsThePointerThenTheWord : Obligations.LdiReadsThePointerThenTheWord :=
  ⟨decode_ldi, fun dr off s => ⟨_, exec_ldi s dr off,
    loadsOnly_define (readEffect_through_pointer s _) (memKept_through_pointer s _) dr _⟩⟩

/-- Settles O12: when the pointer read polls, the pointer is not KBSR_ADDR, so the second read does not poll. -/
theorem ldiPollsAtMostOnce : Obligations.LdiPollsAtMostOnce := by
  intro dr off s t h
  obtain rfl := Host.Outcome.next.inj ((exec_ldi s dr off).symm.trans h)
  refine ⟨fun hpa => ?_, s.inp_through_pointer (s.pcRel off)⟩
  rw [hpa]
  exact s.peek_pollKeyboard_kbsr_ne

/-- Settles O10: one read, at pc plus the offset. -/
theorem ldReadsThePcRelativeWord : Obligations.LdReadsThePcRelativeWord :=
  ⟨decode_ld, fun dr off s => ⟨_, exec_ld s dr off, loadsOnly_memRead s (s.pcRel off) dr⟩⟩

/-- Settles O13: one read, at the base plus the offset; the base is the old state's, also when it is DR. -/
theorem ldrReadsTheBasePlusOffsetWord : Obligations.LdrReadsTheBasePlusOffsetWord :=
  ⟨decode_ldr, fun dr base off s => ⟨_, exec_ldr s dr base off, loadsOnly_memRead s (s.baseOffset base off) dr⟩⟩

/-- Settles O14: adding the sign-extended offset is adding its signed value modulo 65536. -/
theorem leaDefinesThePcRelativeAddress : Obligations.LeaDefinesThePcRelativeAddress := by
  refine ⟨decode_lea, fun dr off s => ⟨_, exec_lea s dr off, ?_⟩⟩
  rw [ofInt_toNat_add_toInt]
  exact definesOnly_define s dr _

end Sys2Proof.Machine
end

section
/-! PROOFS of the family 43_store.md. Each store is one MemWrite, whose effect and frame are `storesOnly_memWrite`. ST and
STR store in the state itself, STI in the state its pointer read leaves: what the read does is `ReadEffect`. -/

namespace Sys2Proof.Machine

/-- `t` is `s` but for the word at `a`, which is `v`. -/
def StoresOnly (s t : State) (a v : Word) : Prop :=
  t.peek a = v ∧ MemKept s t [a] ∧ RegsKept s t [] ∧ t.cond = s.cond ∧ t.pc = s.pc ∧ t.run = s.run ∧ ChannelsKept s t

theorem storesOnly_memWrite (s : State) (a v : Word) : StoresOnly s (s.memWrite a v) a v := by
  obtain ⟨hpeek, hmem, hregs, hpc, hcond, hframe⟩ := memWriteStoresUnconditionally s a v
  exact ⟨hpeek, hmem, hregs, hcond, hpc, hframe⟩

/-- Settles O15: one direct store, at pc plus the offset. -/
theorem stStoresAtThePcRelativeAddress : Obligations.StStoresAtThePcRelativeAddress :=
  ⟨decode_st, fun sr off s => ⟨_, exec_st s sr off, storesOnly_memWrite s (s.pcRel off) (s.reg sr)⟩⟩

/-- Settles O16: the store is framed relative to the state the pointer read leaves, and the read keeps all but memory and
the input; that the two together change no other address is `memKept_exec`. -/
theorem stiStoresAtThePointer : Obligations.StiStoresAtThePointer := by
  refine ⟨decode_sti, fun sr off s => ⟨_, exec_sti s sr off, ?_⟩⟩
  have hread : ReadEffect s (s.memRead (s.pcRel off)).2 := readEffect_intercept s _
  obtain ⟨hpeek, hmem, hregs, hcond, hpc, hrun, hinp, hout⟩ :=
    storesOnly_memWrite (s.memRead (s.pcRel off)).2 (s.memRead (s.pcRel off)).1 (s.reg sr)
  exact ⟨hpeek, hmem, memKept_exec (exec_sti s sr off), fun q hq => (hregs q hq).trans (hread.reg q),
    hcond.trans hread.cond, hpc.trans hread.pc, hrun.trans hread.run, hinp, hout.trans hread.out⟩

/-- Settles O17: one store, at the base plus the offset; base and source are the old state's, also when they are one
register. -/
theorem strStoresAtTheBasePlusOffset : Obligations.StrStoresAtTheBasePlusOffset :=
  ⟨decode_str, fun sr base off s =>
    ⟨_, exec_str s sr base off, storesOnly_memWrite s (s.baseOffset base off) (s.reg sr)⟩⟩

end Sys2Proof.Machine
end

section
/-! PROOFS of the family 44_trap.md. Every TRAP row is the link of R121 and then a routine; what each routine that completes
leaves alone is `RoutineEffect`, read here from the state before the link. The wait of GETC and IN (`waitRoutine`) and the
string walk of PUTS and PUTSP (`stringRoutine`) are stated once each: what they answer, and exactly when they complete. -/

namespace Sys2Proof.Machine

/-! ### The frame of the TRAP rows (R120, R121) -/

theorem RoutineEffect.linked {s t : State} (h : RoutineEffect s.trapLink t) : Linked s t :=
  (h.reg 7 (by decide)).trans (linked_trapLink s)

theorem RoutineEffect.regsKept {s t : State} (h : RoutineEffect s.trapLink t) : RegsKept s t [0, 7] := by
  intro q hq
  obtain ⟨h0, h7⟩ : q ≠ 0 ∧ q ≠ 7 := by simpa using hq
  rw [h.reg q h0, regsKept_trapLink s q (by simpa using h7)]

/-- Every row of the TRAP opcode runs its routine on the linked state. -/
theorem routineEffect_of_isTrapRow {i : Instr} {s t : State} (hi : isTrapRow i = true) (h : exec i s = .next t) :
    RoutineEffect s.trapLink t := by
  cases i with
  | getc => exact getcRoutine_effect h
  | out => exact outRoutine_effect h
  | puts => exact putsRoutine_effect h
  | in_ => exact inRoutine_effect h
  | putsp => exact putspRoutine_effect h
  | halt => exact haltRoutine_effect h
  | trap code => exact execTrap_effect h
  | _ => simp [isTrapRow] at hi

/-- A row that writes no register of its own: all it may have changed beside the output is R7. -/
theorem linkAndPut_frame (s : State) (bs : List Byte) :
    (s.trapLink.put bs).inp = s.inp ∧ Linked s (s.trapLink.put bs) ∧ RegsKept s (s.trapLink.put bs) [7] ∧
      (s.trapLink.put bs).cond = s.cond ∧ MemKept s (s.trapLink.put bs) [] ∧ (s.trapLink.put bs).pc = s.pc ∧
      (s.trapLink.put bs).run = s.run :=
  ⟨rfl, linked_trapLink s, regsKept_trapLink s, rfl, fun _ _ => rfl, rfl, rfl⟩

/-- Settles O25: a routine writes at most R0 of the registers, so R7 is as the link left it. -/
theorem trapLinksR7OnlyByTheParameter : Obligations.TrapLinksR7OnlyByTheParameter := by
  intro i s t hi h
  have heff : RoutineEffect s.trapLink t := routineEffect_of_isTrapRow hi h
  have hlink : t.reg 7 = if Config.trapWritesR7 then s.pc else s.reg 7 := heff.linked
  exact ⟨fun hwrites => hlink.trans (if_pos hwrites), fun hkeeps => hlink.trans (if_neg (by simp [hkeeps])),
    heff.regsKept⟩

/-! ### GETC and IN: one byte (R123, R126) -/

theorem reg_zero_setReg_zext8 (s : State) (c : Byte) : (s.setReg 0 (zext8 c)).reg 0 = 0x00#8 ++ c := by
  rw [State.reg_setReg, if_pos rfl, zext8, setWidth_sixteen_eq_append]

/-- GETC and IN but for what they put: `echoed c` is the state after their output when the byte is `c`, `waiting` the state
they wait in. -/
def waitRoutine (waiting : State) (echoed : Byte → State) (inp : InChannel) : Host.Outcome State Fault Refusal :=
  match InChannel.wait inp with
  | some (c, rest) => .next (((echoed c).setInp rest).setReg 0 (zext8 c))
  | none => .fault (.waitsForever waiting)

theorem exec_getc_eq_waitRoutine (s : State) :
    exec .getc s = waitRoutine s.trapLink (fun _ => s.trapLink) s.inp := rfl

theorem exec_in_eq_waitRoutine (s : State) :
    exec .in_ s =
      waitRoutine (s.trapLink.put Config.inPrompt) (fun c => s.trapLink.put (Config.inPrompt ++ [c])) s.inp := rfl

section
variable (waiting : State) (echoed : Byte → State) (inp : InChannel)

theorem waitRoutine_of_byteToCome {c : Byte} (hc : inp.byteToCome 0 = some c) :
    ∃ rest, InChannel.Took 1 inp rest ∧
      waitRoutine waiting echoed inp = .next (((echoed c).setInp rest).setReg 0 (zext8 c)) := by
  obtain ⟨-, hbyte⟩ := waitTakesTheFirstByteToCome.1 inp
  obtain ⟨rest, hwait, htook⟩ := hbyte c hc
  exact ⟨rest, htook, by rw [waitRoutine, hwait]⟩

theorem waitRoutine_of_no_byte (hnone : inp.byteToCome 0 = none) :
    waitRoutine waiting echoed inp = .fault (.waitsForever waiting) := by
  obtain ⟨hiff, -⟩ := waitTakesTheFirstByteToCome.1 inp
  rw [waitRoutine, hiff.2 hnone]

theorem waitRoutine_completes_iff :
    (∃ t, waitRoutine waiting echoed inp = .next t) ↔ inp.byteToCome 0 ≠ none := by
  obtain ⟨hiff, -⟩ := waitTakesTheFirstByteToCome.1 inp
  rw [ne_eq, ← hiff, waitRoutine]
  cases InChannel.wait inp <;> simp

end

/-- Settles O18: the wait's byte goes into R0, and the rest is the frame of a routine on the linked state. -/
theorem getcTakesTheNextByteIntoR0 : Obligations.GetcTakesTheNextByteIntoR0 := by
  refine ⟨fun xxxx => decode_trapWord xxxx _, fun s c hc => ?byte, fun s hnone => ?noByte⟩
  case byte =>
    obtain ⟨rest, htook, hnext⟩ := waitRoutine_of_byteToCome _ _ _ hc
    have h := (exec_getc_eq_waitRoutine s).trans hnext
    have heff := routineEffect_of_isTrapRow rfl h
    exact ⟨_, h, reg_zero_setReg_zext8 _ c, htook, rfl, heff.linked, heff.regsKept, rfl, heff.memKept [], rfl, rfl⟩
  case noByte => exact ⟨_, (exec_getc_eq_waitRoutine s).trans (waitRoutine_of_no_byte _ _ _ hnone), rfl⟩

/-- Settles O21: as GETC, with the prompt put before the wait and the byte after it. -/
theorem inPromptsEchoesAndTakesTheNextByte : Obligations.InPromptsEchoesAndTakesTheNextByte := by
  refine ⟨fun xxxx => decode_trapWord xxxx _, fun s c hc => ?byte, fun s hnone => ?noByte⟩
  case byte =>
    obtain ⟨rest, htook, hnext⟩ := waitRoutine_of_byteToCome _ _ _ hc
    have h := (exec_in_eq_waitRoutine s).trans hnext
    have heff := routineEffect_of_isTrapRow rfl h
    exact ⟨_, h, reg_zero_setReg_zext8 _ c, htook, (List.append_assoc ..).symm, heff.linked, heff.regsKept, rfl,
      heff.memKept [], rfl, rfl⟩
  case noByte => exact ⟨_, (exec_in_eq_waitRoutine s).trans (waitRoutine_of_no_byte _ _ _ hnone), rfl⟩

/-! ### PUTS and PUTSP: one string (R125, R127) -/

/-- PUTS and PUTSP but for the rule that turns words into characters. -/
def stringRoutine (chars : List Word → List Byte) (s : State) : Host.Outcome State Fault Refusal :=
  match s.stringAt (s.reg 0) with
  | some ws => .next (s.put (chars ws))
  | none => .fault (.endlessString s)

theorem exec_puts_eq_stringRoutine (s : State) : exec .puts s = stringRoutine putsBytes s.trapLink := rfl

theorem exec_putsp_eq_stringRoutine (s : State) : exec .putsp s = stringRoutine putspBytes s.trapLink := rfl

theorem stringRoutine_of_terminatedAt (chars : List Word → List Byte) {s : State} {k : Nat}
    (h : TerminatedAt s (s.reg 0) k) :
    stringRoutine chars s.trapLink = .next (s.trapLink.put (chars (wordsAt s (s.reg 0) k))) := by
  rw [stringRoutine, stringAt_trapLink, stringAt_of_terminatedAt h]

theorem stringRoutine_of_no_zero (chars : List Word → List Byte) {s : State} (h : ∀ a, s.peek a ≠ 0x0000) :
    stringRoutine chars s.trapLink = .fault (.endlessString s.trapLink) := by
  rw [stringRoutine, stringAt_trapLink, (s.stringAt_eq_none _).2 h]

theorem stringRoutine_completes_iff (chars : List Word → List Byte) (s : State) :
    (∃ t, stringRoutine chars s = .next t) ↔ ¬ ∀ a, s.peek a ≠ 0x0000 := by
  rw [← s.stringAt_eq_none (s.reg 0), stringRoutine]
  cases s.stringAt (s.reg 0) <;> simp

theorem packedBytes_eq_ite_ne (w : Word) :
    packedBytes w =
      if w.extractLsb' 8 8 ≠ 0x00#8 then [w.extractLsb' 0 8, w.extractLsb' 8 8] else [w.extractLsb' 0 8] :=
  (ite_not ..).symm

/-- Settles O20: the walk answers the words before the first zero word, and PUTS puts their low bytes. -/
theorem putsPutsLowBytesUpToTheZeroWord : Obligations.PutsPutsLowBytesUpToTheZeroWord :=
  ⟨fun xxxx => decode_trapWord xxxx _,
    fun s _ hk =>
      ⟨_, (exec_puts_eq_stringRoutine s).trans (stringRoutine_of_terminatedAt _ hk), rfl, linkAndPut_frame s _⟩,
    fun s hne => ⟨_, (exec_puts_eq_stringRoutine s).trans (stringRoutine_of_no_zero _ hne)⟩⟩

/-- Settles O22: the same walk, with the packed characters of each word. -/
theorem putspPutsPackedBytesUpToTheZeroWord : Obligations.PutspPutsPackedBytesUpToTheZeroWord := by
  refine ⟨fun xxxx => decode_trapWord xxxx _, fun s k hk => ?_,
    fun s hne => ⟨_, (exec_putsp_eq_stringRoutine s).trans (stringRoutine_of_no_zero _ hne)⟩⟩
  refine ⟨_, (exec_putsp_eq_stringRoutine s).trans (stringRoutine_of_terminatedAt _ hk), ?_, linkAndPut_frame s _⟩
  simp only [← packedBytes_eq_ite_ne]
  rfl

/-! ### OUT, HALT and the unknown codes (R124, R128, R129) -/

/-- Settles O19: OUT puts one byte on the linked state, whose R0 is the old one. -/
theorem outPutsTheLowByteOfR0 : Obligations.OutPutsTheLowByteOfR0 := by
  refine ⟨fun xxxx => decode_trapWord xxxx _, fun s => ⟨_, exec_out s, ?_, linkAndPut_frame s _⟩⟩
  rw [State.put_out, State.reg_trapLink, if_neg (by simp)]
  rfl

/-- Settles O23: HALT puts its message and sets the run state, which is all that differs from the frame of a put. -/
theorem haltAnnouncesAndEndsTheRun : Obligations.HaltAnnouncesAndEndsTheRun := by
  refine ⟨fun xxxx => decode_trapWord xxxx _, fun s => ⟨_, exec_halt s, rfl, rfl, ?_⟩⟩
  obtain ⟨hinp, hlinked, hregs, hcond, hmem, hpc, -⟩ := linkAndPut_frame s Config.haltMessage
  exact ⟨hinp, hlinked, hregs, hcond, hmem, hpc⟩

/-- The six named codes are those from 0x20 to 0x25, so a code outside that range is none of them (R122). -/
theorem wellFormed_trap_of_outside {code : BitVec 8} (h : code.toNat < 0x20 ∨ 0x25 < code.toNat) :
    (Instr.trap code).wellFormed = true := by
  have hnamed : ∀ c ∈ namedTrapCodes, ¬ (c.toNat < 0x20 ∨ 0x25 < c.toNat) := by decide
  have hcode : code ∉ namedTrapCodes := fun hmem => hnamed code hmem h
  simpa [Instr.wellFormed] using hcode

/-- Settles O24: a code outside the range is well-formed as the generic row, which faults on the linked state. -/
theorem unknownTrapCodeFaults : Obligations.UnknownTrapCodeFaults := by
  refine ⟨fun xxxx code hcode => ?decodes, fun code s hcode => ?faults⟩
  case decodes => rw [decode_trapWord, decodeTrap_of_wellFormed (wellFormed_trap_of_outside hcode)]
  case faults =>
    exact ⟨_, exec_trap s (wellFormed_trap_of_outside hcode), rfl, linked_trapLink s, regsKept_trapLink s, rfl,
      fun _ _ => rfl, rfl, rfl, rfl⟩

/-! ### Which instructions complete (R130, R151, R152) -/

/-- The instruction never completes: the wait or the walk of R130. -/
def Hangs (i : Instr) (s : State) : Prop :=
  ((i = .getc ∨ i = .in_) ∧ s.inp.byteToCome 0 = none) ∨ ((i = .puts ∨ i = .putsp) ∧ ∀ a, s.peek a ≠ 0x0000)

theorem exec_completes_iff {i : Instr} (hwf : i.wellFormed = true) (s : State) :
    (∃ t, exec i s = .next t) ↔ ¬ Hangs i s := by
  cases i with
  | getc => simpa [Hangs, exec_getc_eq_waitRoutine] using waitRoutine_completes_iff s.trapLink _ s.inp
  | in_ => simpa [Hangs, exec_in_eq_waitRoutine] using waitRoutine_completes_iff (s.trapLink.put Config.inPrompt) _ s.inp
  | puts => simpa [Hangs, exec_puts_eq_stringRoutine] using stringRoutine_completes_iff putsBytes s.trapLink
  | putsp => simpa [Hangs, exec_putsp_eq_stringRoutine] using stringRoutine_completes_iff putspBytes s.trapLink
  | jsrr base => exact iff_of_true ⟨_, exec_jsrr s base⟩ (by simp [Hangs])
  | trap code => exact iff_of_true ⟨_, exec_trap s hwf⟩ (by simp [Hangs])
  | _ => exact iff_of_true ⟨_, rfl⟩ (by simp [Hangs])

/-- Settles O51: a RUNNING step is the decoded, hence well-formed, instruction on the fetched state. -/
theorem runningStepsCompleteExceptTheTwoHangs : Obligations.RunningStepsCompleteExceptTheTwoHangs := by
  intro s hrun
  rw [step_running hrun]
  exact exec_completes_iff (decode_wellFormed _) s.fetch.2

end Sys2Proof.Machine
end

section
/-! PROOFS of the family 45_invalid.md. Neither opcode reads bits 11:0 (`decode_rti`, `decode_res`), and each answers
`State.raise`, whose frame (R150) is `faultsOnly_raise`. -/

namespace Sys2Proof.Machine

/-- Settles O26: the answer is `State.raise` with the opcode's number, 8. -/
theorem rtiFaultsWithOpcode8 : Obligations.RtiFaultsWithOpcode8 :=
  ⟨decode_rti, fun s => ⟨_, exec_rti s, faultsOnly_raise s _⟩⟩

/-- Settles O27: the answer is `State.raise` with the opcode's number, 13. -/
theorem reservedOpcodeFaultsWithOpcode13 : Obligations.ReservedOpcodeFaultsWithOpcode13 :=
  ⟨decode_res, fun s => ⟨_, exec_res s, faultsOnly_raise s _⟩⟩

end Sys2Proof.Machine
end

section
/-! PROOFS of the family 60_exceptions.md. A step that faults is the fetch, then for an unknown TRAP the link, and then
`State.raise` (`step_faulted_cases`); each of the three leaves what R150 lists, and no step starts in FAULTED. -/

namespace Sys2Proof.Machine

/-- What a step that faults can have done: raised the fault on the state the fetch left, or on that state linked (R129,
R140, R141). -/
theorem step_faulted_cases {s t : State} {reason : FaultReason} (h : step s = .next t) (ht : t.run = .faulted reason) :
    (∃ opcode, reason = .invalidOpcode opcode ∧ t = s.fetch.2.raise reason) ∨
      ∃ code, reason = .unknownTrap code ∧ t = s.fetch.2.trapLink.raise reason := by
  obtain ⟨-, hexec⟩ := step_next h
  obtain ⟨-, -, hfaulted⟩ := runStateChangesOnlyByHaltAndFaults s t h
  have hwf : (decode s.fetch.1).wellFormed = true := decode_wellFormed s.fetch.1
  rcases (hfaulted reason).1 ht with ⟨hi, rfl⟩ | ⟨hi, rfl⟩ | ⟨code, hi, rfl⟩ <;> rw [hi] at hexec hwf
  · exact .inl ⟨_, rfl, Host.Outcome.next.inj (hexec.symm.trans (exec_rti _))⟩
  · exact .inl ⟨_, rfl, Host.Outcome.next.inj (hexec.symm.trans (exec_res _))⟩
  · exact .inr ⟨_, rfl, Host.Outcome.next.inj (hexec.symm.trans (exec_trap _ hwf))⟩

/-- Settles O40: the raise and the link leave all but the run state and R7, and the fetch moves pc and may poll. -/
theorem faultedStepLeavesAllElseAsItWas : Obligations.FaultedStepLeavesAllElseAsItWas := by
  intro s t reason h ht
  have hstuck : ∀ u, step t ≠ .next u := by
    intro u hu
    obtain ⟨hrunning, -⟩ := step_next hu
    simp [ht] at hrunning
  have hnotHalted : ¬ t.halted := by simp [State.halted, ht]
  rcases step_faulted_cases h ht with ⟨opcode, rfl, rfl⟩ | ⟨code, rfl, rfl⟩
  · exact ⟨s.fetch_pc, s.fetch_cond, s.fetch_out, memKept_of_mem_eq rfl _, rfl, fun q _ => s.reg_fetch q, hstuck,
      hnotHalted⟩
  · exact ⟨s.fetch_pc, s.fetch_cond, s.fetch_out, memKept_of_mem_eq rfl _, rfl,
      fun q hq => (regsKept_trapLink_exact s.fetch.2 q hq).trans (s.reg_fetch q), hstuck, hnotHalted⟩

end Sys2Proof.Machine
end

section
/-! PROOFS of the family 70_reset_and_hazards.md: the loader and the boot order (R171 to R174) and which states have a
step (R175); and three statements beside the families: the canonical form of memory, which its reads determine (log 1), and
the spec's example words. -/

namespace Sys2Proof.Machine

/-! ### The canonical form of memory (log 1) -/

/-- A canonical memory lists exactly the words it reads, but for those an unlisted address reads as. -/
theorem Memory.mem_iff_read {m : Memory} (hm : Memory.wf m) (a : Nat) (v : Word) :
    (a, v) ∈ m ↔ v ≠ Memory.unlisted ∧ Memory.read m a = v := by
  induction m with
  | nil => simpa [Memory.read_nil] using fun hv => Ne.symm hv
  | cons c m ih =>
    obtain ⟨k, w⟩ := c
    obtain ⟨hk, -, hw, hm'⟩ := Memory.wf_cons.1 hm
    rw [List.mem_cons, Prod.mk.injEq, Memory.read_cons, ih hm']
    split_ifs with hka
    · subst hka
      rw [Memory.read_of_lt hk]
      constructor
      · rintro (⟨-, rfl⟩ | ⟨hv, hunlisted⟩)
        · exact ⟨hw, rfl⟩
        · exact absurd hunlisted.symm hv
      · rintro ⟨-, rfl⟩
        exact .inl ⟨rfl, rfl⟩
    · simp [Ne.symm hka]

theorem Memory.nodup_of_wf {m : Memory} (hm : Memory.wf m) : m.Nodup := by
  obtain ⟨hrising, -⟩ := hm
  exact hrising.imp fun hlt heq => by simp [heq] at hlt

/-- Settles O33: both lists hold the same cells, in the same rising order. -/
theorem canonicalMemoriesWithEqualReadsAreEqual : Obligations.CanonicalMemoriesWithEqualReadsAreEqual := by
  intro m m' hm hm' hreads
  have hcells : ∀ c : Cell, c ∈ m ↔ c ∈ m' := by
    rintro ⟨a, v⟩
    by_cases ha : a < 65536
    · have hread : Memory.read m a = Memory.read m' a := by
        simpa [Nat.mod_eq_of_lt ha] using hreads (BitVec.ofNat 16 a)
      rw [Memory.mem_iff_read hm, Memory.mem_iff_read hm', hread]
    · exact iff_of_false (fun h => ha (hm.2 _ h).1) fun h => ha (hm'.2 _ h).1
  have hperm : m.Perm m' := (List.perm_ext_iff_of_nodup (Memory.nodup_of_wf hm) (Memory.nodup_of_wf hm')).2 hcells
  exact hperm.eq_of_pairwise (fun c d _ _ hcd hdc => absurd hcd (by omega)) hm.1 hm'.1

/-- Settles O55: reset lists no word, and loading images keeps the canonical form. -/
theorem resetAndBootMemoryIsCanonical : Obligations.ResetAndBootMemoryIsCanonical :=
  ⟨Memory.wf_nil, fun _ images _ => wf_loadImages images Memory.wf_nil⟩

/-! ### The words of the spec's examples -/

/-- Settles O34: each word in its format's fields. -/
theorem wordsOfTheExamplesDecode : Obligations.WordsOfTheExamplesDecode :=
  ⟨decode_addImm 0 1 3, decode_addReg 0 1 2 0, decode_not 0 1 0b111111, decode_br false false true 0b111111101,
    decode_jsr 2, decode_ldr 2 1 0, decode_sti 4 4, decode_trapWord 0 0x25, decode_rti 0, decode_trapWord 0 0xFF⟩

/-! ### The step (R175) -/

/-- Settles O38: fetch and then execute, and a fetch beside KBSR_ADDR has no device effect. -/
theorem stepRunsTheDecodedInstruction : Obligations.StepRunsTheDecodedInstruction := by
  intro s hrun
  refine ⟨fun hpc => ?_, step_running hrun⟩
  rw [step_running hrun, s.fetch_of_ne hpc]

/-- Settles O39: a step that has a next state starts in RUNNING. -/
theorem noStepInHaltedOrFaulted : Obligations.NoStepInHaltedOrFaulted :=
  fun _ hrun _ h => hrun (step_next h).1

/-! ### The words of one image (R172, R174) -/

theorem toNat_append_bytes (hi lo : Byte) : (hi ++ lo : Word).toNat = 256 * hi.toNat + lo.toNat := by
  rw [BitVec.toNat_append, ← Nat.shiftLeft_add_eq_or_of_lt lo.isLt, Nat.shiftLeft_eq, Nat.mul_comm]

/-- The copy from address `a` leaves the addresses below `a`, and those past the last whole word or past 0xFFFF. -/
theorem read_loadWords_outside (b : List Byte) (a : Nat) (m : Memory) {x : Nat}
    (hx : x < a ∨ a + min (b.length / 2) (65536 - a) ≤ x) : Memory.read (loadWords b a m) x = Memory.read m x := by
  induction b, a, m using loadWords.induct with
  | case1 hi lo rest a m ha ih =>
    simp only [List.length_cons] at hx
    rw [loadWords, if_pos ha, ih (by omega), Memory.read_write, if_neg (by omega)]
  | case2 hi lo rest a m ha => rw [loadWords, if_neg ha]
  | case3 b a m hshort => rw [loadWords]; exact hshort

/-- The copy from address `a` puts the `k`-th pair of bytes at `a + k`, the high byte first. -/
theorem read_loadWords_word (b : List Byte) (a : Nat) (m : Memory) {k : Nat} {hi lo : Byte} (hk : a + k < 65536)
    (hhi : b[2 * k]? = some hi) (hlo : b[2 * k + 1]? = some lo) :
    Memory.read (loadWords b a m) (a + k) = hi ++ lo := by
  induction b, a, m using loadWords.induct generalizing k with
  | case1 hi' lo' rest a m ha ih =>
    rw [loadWords, if_pos ha]
    cases k with
    | zero =>
      obtain rfl : hi' = hi := by simpa using hhi
      obtain rfl : lo' = lo := by simpa using hlo
      rw [read_loadWords_outside rest (a + 1) _ (.inl (by omega)), Memory.read_write, if_pos a.add_zero.symm]
    | succ k =>
      rw [Nat.add_comm k 1, ← Nat.add_assoc]
      exact ih (by omega) hhi hlo
  | case2 hi' lo' rest a m ha => omega
  | case3 b a m hshort =>
    match b, hshort with
    | [], _ => simp at hlo
    | [_], _ => simp at hlo
    | _ :: _ :: _, hshort => exact (hshort _ _ _ rfl).elim

theorem loadImage_of_length_lt_two {b : List Byte} (m : Memory) (h : b.length < 2) : loadImage (some b) m = none := by
  match b, h with
  | [], _ => rfl
  | [_], _ => rfl

/-- Settles O56: the two bytes of the origin are taken off the image, and the copy starts at their word. -/
theorem loaderCopiesBigEndianWordsFromTheOrigin : Obligations.LoaderCopiesBigEndianWordsFromTheOrigin := by
  refine ⟨fun b m h => loadImage_of_length_lt_two m h, fun b m hi lo hhi hlo => ?_⟩
  obtain ⟨rest, rfl⟩ : ∃ rest, b = hi :: lo :: rest := by
    match b with
    | [] => simp at hhi
    | [_] => simp at hlo
    | _ :: _ :: rest => exact ⟨rest, by simp_all⟩
  refine ⟨_, rfl, ?_⟩
  rw [toNat_append_bytes]
  refine ⟨fun k hk h l hh hl => ?_, fun x _ hx => read_loadWords_outside rest _ m hx⟩
  rw [read_loadWords_word rest _ m (by omega) (by simpa [Nat.add_comm 2] using hh) (by simpa [Nat.add_comm 3] using hl),
    toNat_append_bytes]

/-- A word as an image holds it, the high byte first (R172). -/
def bigEndian (w : Word) : List Byte := [highByte w, lowByte w]

theorem highByte_append_lowByte (w : Word) : highByte w ++ lowByte w = w :=
  BitVec.extractLsb'_append_extractLsb'

theorem getElem?_flatMap_bigEndian {ws : List Word} {k : Nat} {w : Word} (h : ws[k]? = some w) :
    (ws.flatMap bigEndian)[2 * k]? = some (highByte w) ∧ (ws.flatMap bigEndian)[2 * k + 1]? = some (lowByte w) := by
  induction ws generalizing k with
  | nil => simp at h
  | cons v ws ih =>
    cases k with
    | zero =>
      obtain rfl : v = w := by simpa using h
      exact ⟨rfl, rfl⟩
    | succ k => exact ih h

/-- Settles O59: MemRead beside KBSR_ADDR is the raw read, and the copy put the word's two bytes there. -/
theorem loadedWordsReadBack : Obligations.LoadedWordsReadBack := by
  intro origin ws s m' k w hfits hload hw hkbsr
  obtain ⟨hk, -⟩ := List.getElem?_eq_some_iff.1 hw
  have haddr : (origin + BitVec.ofNat 16 k).toNat = origin.toNat + k := by
    rw [BitVec.toNat_add, BitVec.toNat_ofNat]
    omega
  obtain rfl : loadWords (ws.flatMap bigEndian) (highByte origin ++ lowByte origin : Word).toNat s.mem = m' :=
    Option.some.inj hload
  obtain ⟨hhi, hlo⟩ := getElem?_flatMap_bigEndian hw
  rw [State.memRead_fst, State.intercept_of_ne _ hkbsr, State.peek, haddr, highByte_append_lowByte,
    read_loadWords_word _ _ _ (by omega) hhi hlo, highByte_append_lowByte]

/-! ### The images in order, and boot (R171, R173) -/

theorem loadImages_cons_of_loaded {image : Image} {m m' : Memory} (rest : List Image)
    (h : loadImage image m = some m') :
    loadImages (image :: rest) m = ((loadImages rest m').1, true :: (loadImages rest m').2) := by
  rw [loadImages, h]

theorem loadImages_cons_of_failed {image : Image} {m : Memory} (rest : List Image) (h : loadImage image m = none) :
    loadImages (image :: rest) m = ((loadImages rest m).1, false :: (loadImages rest m).2) := by
  rw [loadImages, h]

/-- Settles O57, by whether the first image loads. -/
theorem loadFailuresAreReportedAndSkipped : Obligations.LoadFailuresAreReportedAndSkipped :=
  ⟨fun _ => rfl, fun _ => rfl, fun _ rest _ =>
    ⟨fun _ h => loadImages_cons_of_loaded rest h, loadImages_cons_of_failed rest⟩⟩

/-- Settles O58: boot writes pc, memory and the input over reset, and
leaves a RUNNING block, whose step `stepRunsTheDecodedInstruction` gives. -/
theorem bootRunsFromStartPcWithTheImagesLoaded : Obligations.BootRunsFromStartPcWithTheImagesLoaded := by
  intro startPc images inp
  obtain ⟨hstep, -⟩ := stepRunsTheDecodedInstruction (State.boot startPc images inp) rfl
  exact ⟨rfl, rfl, rfl, rfl, rfl, rfl, rfl, hstep⟩

end Sys2Proof.Machine
end
